-- ==== Sys2Proof/Word.lean ====
section
/-! DEFINITION. The word types of the block and the binary64 constants its rules name (R7, R12). -/

namespace Sys2Proof

/-- One byte of a byte-wide transport (R56). -/
abbrev Byte := BitVec 8

/-- A command word or a status word (R70, R76). -/
abbrev Word32 := BitVec 32

/-- An operand word or a result word (R70, R76). -/
abbrev Word64 := BitVec 64

/-- A binary64 value as the word that encodes it: sign = bit 63, exponent = bits 62:52,
fraction = bits 51:0 (R7, R12). `f64(w)` and `bits64(f)` of the spec are both the identity here. -/
abbrev F64 := BitVec 64

/-- `+0.0`, the value every real-valued field is cleared to (R20, R123, R143). -/
abbrev posZero : F64 := 0x0000000000000000#64

/-- `+1.0`, an entry of the LO tables (R102). -/
abbrev posOne : F64 := 0x3ff0000000000000#64

/-- `-1.0`, the other entry of the LO tables (R102). -/
abbrev negOne : F64 := 0xbff0000000000000#64

/-- `2.0`, the constant of the delay formula (R165). -/
abbrev posTwo : F64 := 0x4000000000000000#64

/-- `+inf`, which R166 compares the delay quotient with. -/
abbrev posInf : F64 := 0x7ff0000000000000#64

end Sys2Proof
end

