-- ==== Sys2Proof/Syntax.lean ====
section
/-! DEFINITION. The three commands of the opcode table with their operands as typed values (R72, R74, R81),
and the five-word packet a command arrives in (R70). -/

namespace Sys2Proof

/-- A decoded command: one constructor for each row of the opcode table.
The operand words a command ignores (R75) do not appear. -/
inductive Instr where
  /-- CONFIGURE: `fs` the sampling frequency in Hz, `osr` the oversampling ratio (R160). -/
  | configure (fs : F64) (osr : Int)
  /-- INIT_RUN: `ratio` the discriminator delay ratio, `fc` the carrier frequency in Hz,
  `mas` the modulation amplitude sum, `fsens` the frequency sensitivity (R164). -/
  | initRun (ratio : Int) (fc mas fsens : F64)
  /-- PROCESS_SAMPLE: `x` the raw input sample (R170). -/
  | processSample (x : F64)
  deriving DecidableEq, Repr

/-- A command as it arrives on the port: five words, 288 bits (R70). -/
structure Packet where
  cmd : Word32
  op0 : Word64
  op1 : Word64
  op2 : Word64
  op3 : Word64
  deriving DecidableEq, Repr

/-- A response as it leaves the port: three words (R76). -/
structure Response where
  status : Word32
  res0 : Word64
  res1 : Word64
  deriving DecidableEq, Repr

end Sys2Proof
end

