-- ==== Sys2Proof/WellFormed.lean ====
section
/-! DEFINITION. Which commands an encoding can carry: an integer operand is the two's-complement reading of
32 bits (R74), a binary64 operand may be any word. -/

namespace Sys2Proof

/-- `n` is a value `i32` can give (R11). -/
def inI32 (n : Int) : Bool := decide (-2147483648 ≤ n) && decide (n ≤ 2147483647)

/-- The command has an encoding. -/
def Instr.wf : Instr → Bool
  | .configure _ osr => inI32 osr
  | .initRun ratio _ _ _ => inI32 ratio
  | .processSample _ => true

end Sys2Proof
end

