-- ==== Sys2Proof/Machine/Operands.lean ====
section
/-! DEFINITION. Operand assembly and result words (R11, R12, R74, R78), and the byte order of a byte-wide
transport (R56). -/

namespace Sys2Proof.Machine

/-- `f64(w)`: the whole word, any bit pattern (R74). -/
def f64 (w : Word64) : F64 := w

/-- `bits64(f)` (R12). -/
def bits64 (f : F64) : Word64 := f

/-- `i32(w)`: bits 31:0 as two's complement; bits 63:32 are ignored (R11, R74). -/
def i32 (w : Word64) : Int := (w.setWidth 32).toInt

/-- `zext_64(n)` (R11). -/
def zext64 (n : Nat) : Word64 := BitVec.ofNat 64 n

/-- The operand word of an integer operand: bits 31:0 hold it, the ignored bits are zero (R74, R83). -/
def wordOfI32 (n : Int) : Word64 := (BitVec.ofInt 32 n).setWidth 64

/-- The `k` bytes of a number, least significant first (R56). -/
def bytesLE : Nat → Nat → List Byte
  | 0, _ => []
  | k + 1, n => BitVec.ofNat 8 n :: bytesLE k (n / 256)

/-- The number a list of bytes holds, least significant first (R56). -/
def ofBytesLE : List Byte → Nat
  | [] => 0
  | b :: rest => b.toNat + 256 * ofBytesLE rest

end Sys2Proof.Machine
end

