-- ==== Sys2Proof/Decode.lean ====
section
/-! DEFINITION. Decoding a packet, total on all 288-bit packets (R70 to R75, R81), the encoder from the same
tables, and packets and responses as bytes of a byte-wide transport (R56, R57). -/

namespace Sys2Proof

open Machine

/-- What a packet decodes to (R81). -/
inductive Decoded where
  /-- One of the three commands. -/
  | command (i : Instr)
  /-- `Illegal(cause)`: cause 1 an unassigned `OPCODE`, cause 2 a non-zero `RSVD`. -/
  | illegal (cause : Nat)
  deriving DecidableEq, Repr

/-- Why bytes give no packet. -/
inductive PortError where
  /-- Fewer than the 36 bytes of five words: no command has been delivered (R57). -/
  | partialPacket (received : Nat)
  deriving DecidableEq, Repr

/-- `OPCODE`, bits 7:0 of the command word (R71). -/
def opcode (cmd : Word32) : BitVec 8 := cmd.extractLsb' 0 8

/-- `RSVD`, bits 31:8 of the command word (R71). -/
def rsvd (cmd : Word32) : BitVec 24 := cmd.extractLsb' 8 24

/-- `decode` of R81: an unassigned opcode first (R72), then the reserved field (R73), then the command with its
operands in the order of R74. -/
def decode (p : Packet) : Decoded :=
  if opcode p.cmd ≠ 0x01#8 ∧ opcode p.cmd ≠ 0x02#8 ∧ opcode p.cmd ≠ 0x03#8 then .illegal 1
  else if rsvd p.cmd ≠ 0#24 then .illegal 2
  else if opcode p.cmd = 0x01#8 then .command (.configure (f64 p.op0) (i32 p.op1))
  else if opcode p.cmd = 0x02#8 then
    .command (.initRun (i32 p.op0) (f64 p.op1) (f64 p.op2) (f64 p.op3))
  else .command (.processSample (f64 p.op0))

/-- The packet of a command, zero in every ignored operand bit and in `RSVD` (R70 to R74, R83). -/
def encode : Instr → Packet
  | .configure fs osr =>
    { cmd := 0x00000001#32, op0 := bits64 fs, op1 := wordOfI32 osr, op2 := 0#64, op3 := 0#64 }
  | .initRun ratio fc mas fsens =>
    { cmd := 0x00000002#32, op0 := wordOfI32 ratio, op1 := bits64 fc, op2 := bits64 mas, op3 := bits64 fsens }
  | .processSample x =>
    { cmd := 0x00000003#32, op0 := bits64 x, op1 := 0#64, op2 := 0#64, op3 := 0#64 }

/-- The packet whose 288 bits are `n`, bit 0 the least significant bit of `CMD`, then `OP0` to `OP3`. -/
def packetOfBits (n : Nat) : Packet :=
  { cmd := BitVec.ofNat 32 n
    op0 := BitVec.ofNat 64 (n / 2 ^ 32)
    op1 := BitVec.ofNat 64 (n / 2 ^ 96)
    op2 := BitVec.ofNat 64 (n / 2 ^ 160)
    op3 := BitVec.ofNat 64 (n / 2 ^ 224) }

/-- A packet as bytes: CMD, OP0, OP1, OP2, OP3, each least significant byte first (R56). -/
def packetBytes (p : Packet) : List Byte :=
  bytesLE 4 p.cmd.toNat ++ bytesLE 8 p.op0.toNat ++ bytesLE 8 p.op1.toNat ++ bytesLE 8 p.op2.toNat
    ++ bytesLE 8 p.op3.toNat

/-- A response as bytes: STATUS, RES0, RES1, each least significant byte first (R56). -/
def responseBytes (r : Response) : List Byte :=
  bytesLE 4 r.status.toNat ++ bytesLE 8 r.res0.toNat ++ bytesLE 8 r.res1.toNat

/-- The first packet of a stream of bytes and the bytes after it; a partial packet is no command (R56, R57). -/
def packetOfBytes (bs : List Byte) : Except PortError (Packet × List Byte) :=
  if bs.length < 36 then .error (.partialPacket bs.length)
  else .ok (packetOfBits (ofBytesLE (bs.take 36)), bs.drop 36)

/-- Decoding on any bytes: what the first packet decodes to, and the bytes after it. -/
def decodeBytes (bs : List Byte) : Except PortError (Decoded × List Byte) :=
  match packetOfBytes bs with
  | .error e => .error e
  | .ok (p, rest) => .ok (decode p, rest)

/-- The command the decoder reads from the packet whose low `nbits` bits are those of `w` and whose other
bits are zero, laid out as the transport's bytes. -/
def decodeTableWord (nbits w : Nat) : Option Instr :=
  match decodeBytes (bytesLE 36 (w % 2 ^ nbits)) with
  | .ok (.command i, _) => some i
  | _ => none

end Sys2Proof
end

