-- ==== Sys2Proof/Config.lean ====
section
/-! DEFINITION. What an implementation fixes (the parameters of R5), and the values the spec leaves free: the
sign and payload of a NaN result (R10), and what primitives other than the default compute (R5). -/

namespace Sys2Proof

/-- The arithmetic primitives of R5. `none` says that the result is a NaN of the primitive's own making; which
NaN is a draw (R10) that the operation using the primitive makes. -/
structure Arith where
  fadd : F64 → F64 → Option F64
  fsub : F64 → F64 → Option F64
  fmul : F64 → F64 → Option F64
  fdiv : F64 → F64 → Option F64
  deriving Inhabited

/-- Which primitives an instance is built with (R5), as plain data (assumption 3). -/
inductive Primitives where
  /-- The default: IEEE 754 binary64, round to nearest, ties to even (R8). -/
  | binary64
  /-- Other primitives, those that `Config.otherArith` has under this number. -/
  | other (k : Nat)
  deriving DecidableEq, Repr

/-- The parameters of R5, fixed for the life of an instance.
They travel with the state (assumption 2), so a statement about every state is about every choice of them. -/
structure Params where
  /-- `MAX_DELAY`, the capacity of each delay buffer in entries (OPEN in the spec). -/
  maxDelay : Nat
  /-- `B0`, the IIR numerator coefficient b0. -/
  b0 : F64
  /-- `B1`, the IIR numerator coefficient b1. -/
  b1 : F64
  /-- `A1`, the IIR denominator coefficient a1. -/
  a1 : F64
  /-- `fadd`, `fsub`, `fmul` and `fdiv`. -/
  primitives : Primitives
  deriving DecidableEq, Repr

namespace Config

/-- `MAX_DELAY` of the instance that `State.reset` builds. DESIGN CHOICE (assumption 2): the spec leaves it
OPEN and its example vectors use 4096. -/
def maxDelay : Nat := 4096

/-- The default coefficient b0 = 0.1584 (R5). -/
def b0 : F64 := 0x3fc4467381d7dbf5#64

/-- The default coefficient b1 = 0.1584 (R5). -/
def b1 : F64 := 0x3fc4467381d7dbf5#64

/-- The default coefficient a1 = -0.6832 (R5). -/
def a1 : F64 := 0xbfe5dcc63f141206#64

/-- The parameter set of the instance that `State.reset` builds. -/
def params : Params := { maxDelay := maxDelay, b0 := b0, b1 := b1, a1 := a1, primitives := .binary64 }

/-- Free value (assumption 4): the bits a NaN result is drawn from, one word for each draw number.
It has no body, so nothing can be proved of any one of its values (R10). DESIGN CHOICE (assumption 4): it is
one function for all instances and all runs, so equal draw numbers draw equal bits; the spec leaves draws of
different instances and runs unrelated (R10, R18, R176). -/
opaque freeNaN : Nat → F64

/-- Free value (assumption 3): the primitives of an instance not built with the default ones, one set for each
number. It has no body, so a statement about such an instance holds for every choice of them (R5, D2). -/
opaque otherArith : Nat → Arith

end Config
end Sys2Proof
end

