-- ==== Sys2Proof/Machine/State.lean ====
section
/-! DEFINITION. The state: `Block` is the record of R20, field for field; around it `State` holds what the
host's interface needs beside it (the instance's parameters, the port, and the count of NaN draws). -/

namespace Sys2Proof.Machine

/-- The lifecycle state `STATE` (R21). -/
inductive Lifecycle where
  | unconfigured
  | configured
  | running
  deriving DecidableEq, Repr

/-- The two registers of one filter (R36). -/
structure Filter where
  bufIn : F64
  bufOut : F64
  deriving DecidableEq, Repr

/-- Both registers at `+0.0`. -/
def Filter.zero : Filter := { bufIn := posZero, bufOut := posZero }

/-- One delay buffer (R35): the entries that differ from `+0.0`, as pairs of index and value, by rising
index. An index that is not listed reads as `+0.0`, the value reset and DL_RESET give every entry (R20, R143). -/
abbrev Memory := List (Nat × F64)

/-- The one canonical form: indices strictly rising, no entry equal to what an unlisted index reads as. -/
abbrev Memory.wf (m : Memory) : Prop :=
  m.Pairwise (fun a b => a.1 < b.1) ∧ ∀ c ∈ m, c.2 ≠ posZero

/-- The state record of R20: exactly its fields. -/
structure Block where
  /-- `STATE` -/
  state : Lifecycle
  /-- `FS`, the sampling frequency (R22). -/
  fs : F64
  /-- `OSR`, the oversampling ratio (R23). -/
  osr : Int
  /-- `FLO`, the local-oscillator frequency (R24). -/
  flo : F64
  /-- `PERIOD`, the samples in one LO cycle (R25). -/
  period : Nat
  /-- `QUARTER`, a quarter of the period (R26). -/
  quarter : Nat
  /-- `DRATIO`, the discriminator delay ratio (R28). -/
  dratio : Int
  /-- `FC`, the carrier frequency (R29). -/
  fc : F64
  /-- `MAS`, the modulation amplitude sum (R30). -/
  mas : F64
  /-- `FSENS`, the frequency sensitivity (R30). -/
  fsens : F64
  /-- `DELAY`, the discriminator delay in samples (R31). -/
  delay : Nat
  /-- `PHASEDEV`, the theoretical maximum phase deviation (R32). -/
  phasedev : F64
  /-- `LO_IDX` (R33). -/
  loIdx : Nat
  /-- `DLY_IDX` (R34). -/
  dlyIdx : Nat
  /-- `I_BUF` (R35). -/
  iBuf : Memory
  /-- `Q_BUF` (R35). -/
  qBuf : Memory
  /-- The I-channel filter (R36). -/
  fI : Filter
  /-- The Q-channel filter (R36). -/
  fQ : Filter
  /-- The discriminator-output filter (R36). -/
  fOut : Filter
  deriving DecidableEq, Repr

/-- Every field at its reset value (R20, R240). -/
def Block.reset : Block :=
  { state := .unconfigured
    fs := posZero, osr := 0, flo := posZero, period := 0, quarter := 0
    dratio := 0, fc := posZero, mas := posZero, fsens := posZero, delay := 0, phasedev := posZero
    loIdx := 0, dlyIdx := 0, iBuf := [], qBuf := []
    fI := Filter.zero, fQ := Filter.zero, fOut := Filter.zero }

/-- What the world outside can do to the block (R17, R240). -/
inductive HostEvent where
  /-- The host sends a command. -/
  | command (p : Packet)
  /-- Hardware reset between commands. -/
  | reset
  /-- Hardware reset while the block is performing this command, which is aborted without a response. -/
  | resetDuring (p : Packet)
  deriving DecidableEq, Repr

/-- The machine. `block` is the spec's state (R20). The other fields are the model's own
(assumptions 1, 2, 4): the parameters of the instance, the port's two sides, and the number of NaN draws made. -/
structure State where
  /-- The architectural state of the block. -/
  block : Block
  /-- The parameters the instance was built with (R5); no step changes them. -/
  params : Params
  /-- What the host is going to do, first event first (R4, R60). -/
  inputs : List HostEvent
  /-- The responses given so far, first response first: the observation of the run (R4). -/
  responses : List Response
  /-- The number of draws of a NaN that have been counted off (R10). -/
  nanDraws : Nat
  deriving DecidableEq, Repr

/-- Why the machine stops. Neither reason arises in a state that meets the invariants of R37. -/
inductive Fault where
  /-- Raised by PROCESS_SAMPLE in RUNNING with `LO_IDX ≥ PERIOD`: the LO tables have no such entry
  (R52, R100). Safe: the machine stops where the spec gives no meaning. -/
  | loIndexOutOfRange
  /-- Raised by PROCESS_SAMPLE in RUNNING with `DLY_IDX ≥ DELAY`: the delay line has no such active
  entry (R51). Safe: the machine stops where the spec gives no meaning. -/
  | delayIndexOutOfRange
  deriving DecidableEq, Repr

/-- Why a command has no meaning in the model. -/
inductive Refusal where
  /-- An instruction whose meaning has not been written. No arm of `exec` answers it; safe. -/
  | notModelled (mnemonic : String)
  deriving DecidableEq, Repr

/-- An instance with the given parameters right after hardware reset: nothing sent, nothing answered.
DESIGN CHOICE (assumption 4): every instance starts at draw number 0, so two of them draw the same NaNs. -/
def State.resetWith (p : Params) : State :=
  { block := Block.reset, params := p, inputs := [], responses := [], nanDraws := 0 }

/-- The machine right after reset (R240), built with the parameters of `Config.params`. -/
def State.reset : State := State.resetWith Config.params

end Sys2Proof.Machine
end

