-- ==== Sys2Proof/Machine/Flags.lean ====
section
/-! DEFINITION. The only status the block shows: the STATUS word of a response (R41, R76, R77). The block has
no condition codes and no floating-point flags. -/

namespace Sys2Proof.Machine

/-- The four error kinds (R77, R200). -/
inductive ErrCode where
  | invalidConfiguration
  | degenerateParameters
  | prematureUse
  | illegalCommand
  deriving DecidableEq, Repr

/-- An error: its kind and the cause within the kind (R201 to R204). -/
structure Err where
  code : ErrCode
  cause : Nat
  deriving DecidableEq, Repr

/-- `ERR`, the number of an error kind (R77). -/
def errNumber : ErrCode → Nat
  | .invalidConfiguration => 1
  | .degenerateParameters => 2
  | .prematureUse => 3
  | .illegalCommand => 4

/-- The number of a lifecycle state (R21). -/
def stateNumber : Lifecycle → Nat
  | .unconfigured => 0
  | .configured => 1
  | .running => 2

/-- The STATUS word: `ERR` in bits 3:0, `CAUSE` in bits 7:4, `STATE` in bits 9:8, zero above (R76). -/
def statusWord (err cause : BitVec 4) (st : BitVec 2) : Word32 := (0#22 ++ st ++ cause ++ err)

/-- The STATUS word of a success in lifecycle state `st`. -/
def okStatus (st : Lifecycle) : Word32 := statusWord 0#4 0#4 (BitVec.ofNat 2 (stateNumber st))

/-- The STATUS word of an error in lifecycle state `st` (R206). -/
def errStatus (e : Err) (st : Lifecycle) : Word32 :=
  statusWord (BitVec.ofNat 4 (errNumber e.code)) (BitVec.ofNat 4 e.cause) (BitVec.ofNat 2 (stateNumber st))

end Sys2Proof.Machine
end

