-- ==== Sys2Proof/Machine/Float.lean ====
section
/-! DEFINITION. The number format and the arithmetic primitives (R7 to R10, R13 to R15): binary64 with every
result computed exactly and rounded once, to nearest with ties to even.

Every finite binary64 value is a whole number of units of 2^-1074, the least subnormal. The exact result of a
primitive is a whole number or a quotient of whole numbers of units, and `roundMag` narrows it. -/

namespace Sys2Proof.Machine

/-- Units of 2^-1074 in the number one. -/
@[irreducible] def scale : Nat := 2 ^ 1074

/-- The low 63 bits of an infinity: every finite magnitude is below it, every NaN above. -/
def infMag : Nat := 0x7ff0000000000000

/-- Bit 63. -/
def signBit (a : F64) : Bool := a.msb

/-- Bits 62:0 as a number. -/
def magBits (a : F64) : Nat := a.toNat % 2 ^ 63

/-- The word with the given sign and low 63 bits. -/
def pack (neg : Bool) (mag : Nat) : F64 := BitVec.ofNat 64 (mag + if neg then 2 ^ 63 else 0)

/-- True for every NaN (R15). -/
def isNaN (a : F64) : Bool := decide (infMag < magBits a)

/-- True for the two infinities. -/
def isInf (a : F64) : Bool := decide (magBits a = infMag)

/-- False for the infinities and every NaN (R15). -/
def isFinite (a : F64) : Bool := decide (magBits a < infMag)

/-- True for `+0.0` and `-0.0`. -/
def isZero (a : F64) : Bool := decide (magBits a = 0)

/-- `fneg`: invert bit 63, no rounding (R8). -/
def fneg (a : F64) : F64 := a ^^^ 0x8000000000000000#64

/-- `fabs`: clear bit 63, no rounding (R8). -/
def fabs (a : F64) : F64 := a &&& 0x7fffffffffffffff#64

/-- The size, in units of 2^-1074, of a finite value with these low 63 bits (R7): a subnormal is its
fraction, a normal value has the hidden bit and is scaled by its exponent. -/
@[irreducible] def unitsOf (mag : Nat) : Nat :=
  if mag < 2 ^ 52 then mag else (2 ^ 52 + mag % 2 ^ 52) * 2 ^ (mag / 2 ^ 52 - 1)

/-- A finite value in units of 2^-1074. -/
def signedUnits (a : F64) : Int :=
  if signBit a then -(unitsOf (magBits a) : Int) else (unitsOf (magBits a) : Int)

/-- The quotient `n / d` rounded to the nearest whole number, ties to even. -/
@[irreducible] def rne (n d : Nat) : Nat :=
  if 2 * (n % d) < d ∨ (2 * (n % d) = d ∧ n / d % 2 = 0) then n / d else n / d + 1

/-- The low 63 bits of the binary64 value nearest to `n / d` units, ties to even; infinity on overflow (R8).
`e` is the exponent of the unit in the last place, and a carry out of the fraction moves into the exponent. -/
@[irreducible] def roundMag (n d : Nat) : Nat :=
  let e := Nat.log2 (n / d) - 52
  min (e * 2 ^ 52 + rne n (d * 2 ^ e)) infMag

/-- The exact sum of two finite values, rounded once. An exact zero is `-0.0` only when both
operands are negative zeros. -/
def addFinite (a b : F64) : F64 :=
  let sum := signedUnits a + signedUnits b
  if sum = 0 then pack (signBit a && signBit b) 0 else pack (decide (sum < 0)) (roundMag sum.natAbs 1)

/-- IEEE 754 addition (R8); `none` is a NaN result. -/
def ieeeAdd (a b : F64) : Option F64 :=
  if isNaN a || isNaN b then none
  else if isInf a then (if isInf b && (signBit a != signBit b) then none else some a)
  else if isInf b then some b
  else some (addFinite a b)

/-- IEEE 754 subtraction (R8); `none` is a NaN result. -/
def ieeeSub (a b : F64) : Option F64 := ieeeAdd a (fneg b)

/-- The sign of a product or a quotient. -/
def signXor (a b : F64) : Bool := signBit a != signBit b

/-- IEEE 754 multiplication (R8); `none` is a NaN result. -/
def ieeeMul (a b : F64) : Option F64 :=
  if isNaN a || isNaN b then none
  else if isInf a || isInf b then
    (if isZero a || isZero b then none else some (pack (signXor a b) infMag))
  else some (pack (signXor a b) (roundMag (unitsOf (magBits a) * unitsOf (magBits b)) scale))

/-- IEEE 754 division (R8); `none` is a NaN result. -/
def ieeeDiv (a b : F64) : Option F64 :=
  if isNaN a || isNaN b then none
  else if isInf a then (if isInf b then none else some (pack (signXor a b) infMag))
  else if isInf b then some (pack (signXor a b) 0)
  else if isZero b then (if isZero a then none else some (pack (signXor a b) infMag))
  else some (pack (signXor a b) (roundMag (unitsOf (magBits a) * scale) (unitsOf (magBits b))))

/-- The default primitives of R5: IEEE 754 binary64, round to nearest, ties to even (R8). -/
def ieeeArith : Arith := { fadd := ieeeAdd, fsub := ieeeSub, fmul := ieeeMul, fdiv := ieeeDiv }

/-- The primitives an instance was built with (R5, assumption 3). -/
def arithOf (p : Params) : Arith :=
  match p.primitives with
  | .binary64 => ieeeArith
  | .other k => Config.otherArith k

/-- A NaN with the sign and payload of `w`: the exponent is all ones, and a zero fraction, which would
make an infinity, becomes the quiet bit. Every NaN is the image of itself. -/
def forceNaN (w : F64) : F64 :=
  pack (signBit w) (infMag + if w.toNat % 2 ^ 52 = 0 then 2 ^ 51 else w.toNat % 2 ^ 52)

/-- Draw number `n`: some NaN, which one is left open (R10). DESIGN CHOICE (assumption 4): two machines at the
same draw number draw the same NaN, which the spec leaves open (R18, R176). -/
def someNaN (n : Nat) : F64 := forceNaN (Config.freeNaN n)

/-- `fadd(a, b)` of the primitives `A`; a NaN result is draw number `n`. -/
@[irreducible] def fadd (A : Arith) (n : Nat) (a b : F64) : F64 := (A.fadd a b).getD (someNaN n)

/-- `fsub(a, b)` of the primitives `A`; a NaN result is draw number `n`. -/
@[irreducible] def fsub (A : Arith) (n : Nat) (a b : F64) : F64 := (A.fsub a b).getD (someNaN n)

/-- `fmul(a, b)` of the primitives `A`; a NaN result is draw number `n`. -/
@[irreducible] def fmul (A : Arith) (n : Nat) (a b : F64) : F64 := (A.fmul a b).getD (someNaN n)

/-- `fdiv(a, b)` of the primitives `A`; a NaN result is draw number `n`. -/
@[irreducible] def fdiv (A : Arith) (n : Nat) (a b : F64) : F64 := (A.fdiv a b).getD (someNaN n)

/-- A key whose order is the numeric order of the values that are not NaN; both zeros have key 0. -/
def orderKey (a : F64) : Int := if signBit a then -(magBits a : Int) else (magBits a : Int)

/-- `feq(a, b)` (R15). -/
def feq (a b : F64) : Bool := !isNaN a && !isNaN b && decide (orderKey a = orderKey b)

/-- `fgt(a, b)` (R15). -/
def fgt (a b : F64) : Bool := !isNaN a && !isNaN b && decide (orderKey b < orderKey a)

/-- `roundHalfEven(q)` for a finite `q` (R13). -/
@[irreducible] def roundHalfEven (q : F64) : Int :=
  if signBit q then -(rne (unitsOf (magBits q)) scale : Int) else (rne (unitsOf (magBits q)) scale : Int)

/-- `f64_of_int(n)`, exact for `|n| ≤ 2^53` (R14). -/
@[irreducible] def f64OfInt (n : Int) : F64 := pack (decide (n < 0)) (roundMag (n.natAbs * scale) 1)

end Sys2Proof.Machine
end

