-- ==== Sys2Proof/Machine/Ops.lean ====
section
/-! DEFINITION. The shared operations: entries of a delay buffer (R51, R53), ending a command with success or
with an error (R16, R206), and hardware reset (R240).

The block has no trap entry and no return from one (R209, R210): an error response is the whole of taking an
exception, and `raise` is that one operation. -/

namespace Sys2Proof.Machine

/-- Entry `k` of a delay buffer. -/
def Memory.read : Memory → Nat → F64
  | [], _ => posZero
  | (k', v) :: rest, k => if k' = k then v else Memory.read rest k

/-- Entry `k` set to `v`, in canonical form. -/
def Memory.write : Memory → Nat → F64 → Memory
  | [], k, v => if v = posZero then [] else [(k, v)]
  | (k', v') :: rest, k, v =>
    if k < k' then (if v = posZero then (k', v') :: rest else (k, v) :: (k', v') :: rest)
    else if k = k' then (if v = posZero then rest else (k, v) :: rest)
    else (k', v') :: Memory.write rest k v

/-- Every entry at `+0.0` (R143). -/
def Memory.clear : Memory := []

/-- The response to a command that succeeds, reported in lifecycle state `st` (R76, R78). -/
def okResponse (st : Lifecycle) (res0 res1 : Word64) : Response :=
  { status := okStatus st, res0 := res0, res1 := res1 }

/-- The response to a command that raises `e`, reported in lifecycle state `st` (R78, R206). -/
def errResponse (e : Err) (st : Lifecycle) : Response :=
  { status := errStatus e st, res0 := 0#64, res1 := 0#64 }

/-- One response leaves the port. -/
def respond (r : Response) (s : State) : State := { s with responses := s.responses ++ [r] }

/-- `raise Err(code, cause)`: the command ends with an error response and no field of the block is
written (R16, R206, R209). -/
def raise (e : Err) (s : State) : State := respond (errResponse e s.block.state) s

/-- `respond(res0, res1)` of a command that leaves the block as `b` and has counted off `draws` draws (R16). -/
def complete (b : Block) (draws : Nat) (res0 res1 : Word64) (s : State) : State :=
  respond (okResponse b.state res0 res1) { s with block := b, nanDraws := s.nanDraws + draws }

/-- Hardware reset: every field of the block at its reset value (R240). The parameters belong to the
instance and stay; the responses already given stay given. -/
def hardwareReset (s : State) : State := { s with block := Block.reset }

end Sys2Proof.Machine
end

