-- ==== Sys2Proof/Machine/DelayLine.lean ====
section
/-! DEFINITION. The circular delay line and the polar discriminator (R140 to R146). -/

namespace Sys2Proof.Machine

/-- `DlRead(k)`, for `k < DELAY` (R51). -/
def dlRead (b : Block) (k : Nat) : F64 × F64 := (b.iBuf.read k, b.qBuf.read k)

/-- `DlWrite(k, i, q)`, for `k < DELAY` (R51). -/
def dlWrite (b : Block) (k : Nat) (i q : F64) : Block :=
  { b with iBuf := b.iBuf.write k i, qBuf := b.qBuf.write k q }

/-- `DLY_IDX <- (DLY_IDX + 1) mod DELAY` (R144). -/
def dlAdvance (b : Block) : Block := { b with dlyIdx := (b.dlyIdx + 1) % b.delay }

/-- The block after `DL_PUSH(i, q)`; the pair it returns is `dlRead b b.dlyIdx`, read before the
write (R141, C6). -/
def dlPush (b : Block) (i q : F64) : Block := dlAdvance (dlWrite b b.dlyIdx i q)

/-- `DL_RESET(d)` (R143). -/
def dlReset (d : Nat) (b : Block) : Block :=
  { b with delay := d, dlyIdx := 0, iBuf := Memory.clear, qBuf := Memory.clear }

/-- `DISCRIMINATE(iF, qF, iD, qD)` (R145); draws `n` to `n + 2`. -/
def discriminate (p : Params) (n : Nat) (iF qF iD qD : F64) : F64 :=
  let A := arithOf p
  fsub A (n + 2) (fmul A n iF qD) (fmul A (n + 1) qF iD)

end Sys2Proof.Machine
end

