-- ==== Sys2Proof/Machine/IirFilter.lean ====
section
/-! DEFINITION. The single-pole low-pass filter (R120 to R125). -/

namespace Sys2Proof.Machine

/-- `acc` of `IIR_PROCESS` (R120): three roundings in the order written (R9); draws `n` to `n + 3`. -/
def iirAcc (p : Params) (n : Nat) (f : Filter) (x : F64) : F64 :=
  let A := arithOf p
  fsub A (n + 3) (fadd A (n + 1) (fmul A n x p.b0) f.bufIn) (fmul A (n + 2) f.bufOut p.a1)

/-- `IIR_PROCESS(F, x)`: the filter after the step, whose `bufOut` is the result `acc` (R120);
draws `n` to `n + 4`. -/
def iirProcess (p : Params) (n : Nat) (f : Filter) (x : F64) : Filter :=
  { bufIn := fmul (arithOf p) (n + 4) x p.b1, bufOut := iirAcc p n f x }

/-- `IIR_RESET(F)` for the three filters (R123). -/
def iirResetAll (b : Block) : Block := { b with fI := Filter.zero, fQ := Filter.zero, fOut := Filter.zero }

end Sys2Proof.Machine
end

