-- ==== Sys2Proof/Machine/Configure.lean ====
section
/-! DEFINITION. CONFIGURE (R160 to R163). -/

namespace Sys2Proof.Machine

/-- `flo` of R161; draw `n` (the default primitives take none where the earlier checks pass). -/
def configureFlo (p : Params) (n : Nat) (fs : F64) (osr : Int) : F64 := fdiv (arithOf p) n fs (f64OfInt osr)

/-- The checks of R161, in their order: the first that fails, if any. -/
def configureCheck (p : Params) (n : Nat) (fs : F64) (osr : Int) : Option Err :=
  if osr ≤ 0 then some { code := .invalidConfiguration, cause := 1 }
  else if osr % 4 ≠ 0 then some { code := .invalidConfiguration, cause := 2 }
  else if !isFinite fs || !fgt fs posZero then some { code := .invalidConfiguration, cause := 3 }
  else if !fgt (configureFlo p n fs osr) posZero then some { code := .invalidConfiguration, cause := 4 }
  else none

/-- The block after a successful CONFIGURE (R162). -/
def configureBlock (p : Params) (n : Nat) (fs : F64) (osr : Int) (b : Block) : Block :=
  let cfg : Block :=
    { b with
      fs := fs, osr := osr, flo := configureFlo p n fs osr, period := osr.toNat, quarter := (osr / 4).toNat
      dratio := 0, fc := posZero, mas := posZero, fsens := posZero, phasedev := posZero, loIdx := 0 }
  { iirResetAll (dlReset 0 cfg) with state := .configured }

/-- CONFIGURE (R160 to R163): allowed in every lifecycle state. -/
def execConfigure (fs : F64) (osr : Int) (s : State) : Host.Outcome State Fault Refusal :=
  match configureCheck s.params s.nanDraws fs osr with
  | some e => .next (raise e s)
  | none => .next (complete (configureBlock s.params s.nanDraws fs osr s.block) 1 0#64 0#64 s)

end Sys2Proof.Machine
end

