-- ==== Sys2Proof/Machine/InitRun.lean ====
section
/-! DEFINITION. INIT_RUN (R164 to R169). -/

namespace Sys2Proof.Machine

/-- The delay quotient `q` of R165; draws `n` to `n + 3`. -/
def delayQuotient (p : Params) (n : Nat) (b : Block) (ratio : Int) (fc : F64) : F64 :=
  let A := arithOf p
  let diff := fsub A n b.flo fc
  fdiv A (n + 3) (fmul A (n + 1) (f64OfInt ratio) b.fs) (fmul A (n + 2) posTwo (fabs diff))

/-- The checks of R166, in their order: the error of the first that fails, or the delay `d`. DESIGN CHOICE
(assumption 7): a quotient of `-inf`, which R166 excludes, fails the check `d < 1`. -/
def resolveDelay (p : Params) (n : Nat) (b : Block) (ratio : Int) (fc : F64) : Except Err Nat :=
  if b.state = .unconfigured then .error { code := .prematureUse, cause := 1 }
  else if ratio < 1 then .error { code := .degenerateParameters, cause := 1 }
  else if !isFinite fc then .error { code := .degenerateParameters, cause := 2 }
  else if feq b.flo fc then .error { code := .degenerateParameters, cause := 3 }
  else if isNaN (delayQuotient p n b ratio fc) then .error { code := .degenerateParameters, cause := 4 }
  else if delayQuotient p n b ratio fc = posInf then .error { code := .degenerateParameters, cause := 5 }
  else if roundHalfEven (delayQuotient p n b ratio fc) < 1 then
    .error { code := .degenerateParameters, cause := 4 }
  else if (p.maxDelay : Int) < roundHalfEven (delayQuotient p n b ratio fc) then
    .error { code := .degenerateParameters, cause := 5 }
  else .ok (roundHalfEven (delayQuotient p n b ratio fc)).toNat

/-- The phase deviation `pd` of R167 and R168; draws `n` to `n + 2`. -/
def phaseDeviation (p : Params) (n d : Nat) (fs mas fsens : F64) : F64 :=
  let A := arithOf p
  fmul A (n + 2) (fmul A (n + 1) fsens (fdiv A n (f64OfInt d) fs)) mas

/-- The block after a successful INIT_RUN that resolved the delay `d` and the phase deviation `pd` (R167). -/
def initRunBlock (d : Nat) (pd : F64) (ratio : Int) (fc mas fsens : F64) (b : Block) : Block :=
  let run : Block := { b with dratio := ratio, fc := fc, mas := mas, fsens := fsens, phasedev := pd, loIdx := 0 }
  { iirResetAll (dlReset d run) with state := .running }

/-- INIT_RUN (R164 to R169): allowed in CONFIGURED and RUNNING. -/
def execInitRun (ratio : Int) (fc mas fsens : F64) (s : State) : Host.Outcome State Fault Refusal :=
  match resolveDelay s.params s.nanDraws s.block ratio fc with
  | .error e => .next (raise e s)
  | .ok d =>
    let pd := phaseDeviation s.params (s.nanDraws + 4) d s.block.fs mas fsens
    .next (complete (initRunBlock d pd ratio fc mas fsens s.block) 7 (zext64 d) (bits64 pd) s)

end Sys2Proof.Machine
end

