-- ==== Sys2Proof/Machine/LoTable.lean ====
section
/-! DEFINITION. The local-oscillator tables and the switching mixer (R100 to R105). The tables are not
stored: they are functions of the period and its quarter (R27). -/

namespace Sys2Proof.Machine

/-- `LO_SINE(k)`: the first half of a period `+1`, the second half `-1` (R100). -/
def loSine (period k : Nat) : F64 := if k < period / 2 then posOne else negOne

/-- `LO_COS(k)`: the first and last quarter `+1`, the middle half `-1` (R101). -/
def loCos (quarter k : Nat) : F64 := if k < quarter ∨ 3 * quarter ≤ k then posOne else negOne

/-- `LoRead(k)` (R52). -/
def loRead (b : Block) (k : Nat) : F64 × F64 := (loSine b.period k, loCos b.quarter k)

/-- `LO_ADVANCE` (R103). -/
def loAdvance (b : Block) : Block := { b with loIdx := (b.loIdx + 1) % b.period }

/-- `MIX(x, k)`: the pair `(iRaw, qRaw)` (R104); draws `n` and `n + 1`. -/
def mix (p : Params) (n : Nat) (x : F64) (b : Block) (k : Nat) : F64 × F64 :=
  (fmul (arithOf p) n x (loRead b k).1, fmul (arithOf p) (n + 1) x (loRead b k).2)

end Sys2Proof.Machine
end

