-- ==== Sys2Proof/Machine/ProcessSample.lean ====
section
/-! DEFINITION. PROCESS_SAMPLE (R170 to R175). -/

namespace Sys2Proof.Machine

/-- The block after the pipeline of R171; the output `y` is its `fOut.bufOut`. Draws `n` to `n + 19`. -/
def samplePipeline (p : Params) (n : Nat) (x : F64) (b : Block) : Block :=
  let raw := mix p n x b b.loIdx
  let advanced := loAdvance b
  let fI := iirProcess p (n + 2) b.fI raw.1
  let fQ := iirProcess p (n + 7) b.fQ raw.2
  let delayed := dlRead b b.dlyIdx
  let pushed := dlPush advanced fI.bufOut fQ.bufOut
  let polarOut := discriminate p (n + 12) fI.bufOut fQ.bufOut delayed.1 delayed.2
  { pushed with fI := fI, fQ := fQ, fOut := iirProcess p (n + 15) b.fOut polarOut }

/-- PROCESS_SAMPLE in RUNNING. The two guards are the preconditions of the table and delay-line accesses
(R51, R52, R100); every reachable state meets them (R37). -/
def runSample (x : F64) (s : State) : Host.Outcome State Fault Refusal :=
  if s.block.period ≤ s.block.loIdx then .fault .loIndexOutOfRange
  else if s.block.delay ≤ s.block.dlyIdx then .fault .delayIndexOutOfRange
  else
    let b := samplePipeline s.params s.nanDraws x s.block
    .next (complete b 20 (bits64 b.fOut.bufOut) 0#64 s)

/-- PROCESS_SAMPLE (R170 to R173): outside RUNNING it raises PrematureUse (R172, C2). -/
def execProcessSample (x : F64) (s : State) : Host.Outcome State Fault Refusal :=
  match s.block.state with
  | .unconfigured => .next (raise { code := .prematureUse, cause := 1 } s)
  | .configured => .next (raise { code := .prematureUse, cause := 2 } s)
  | .running => runSample x s

end Sys2Proof.Machine
end

