-- ==== Sys2Proof/Machine/Dispatch.lean ====
section
/-! DEFINITION. Which meaning each command has. -/

namespace Sys2Proof.Machine

/-- The meaning of a decoded command: one arm for each row of the opcode table. -/
def exec (i : Instr) (s : State) : Host.Outcome State Fault Refusal :=
  match i with
  | .configure fs osr => Sys2Proof.Machine.execConfigure fs osr s
  | .initRun ratio fc mas fsens => Sys2Proof.Machine.execInitRun ratio fc mas fsens s
  | .processSample x => Sys2Proof.Machine.execProcessSample x s

end Sys2Proof.Machine
end

