-- ==== Sys2Proof/Machine/Serve.lean ====
section
/-! DEFINITION. Serving the port: one packet, or one event of the host (R4, R17, R81, R240). -/

namespace Sys2Proof.Machine

/-- A packet is performed: a command by its meaning, an illegal packet by an IllegalCommand response
(R72, R73, R204). -/
def servePacket (p : Packet) (s : State) : Host.Outcome State Fault Refusal :=
  match decode p with
  | .command i => exec i s
  | .illegal cause => .next (raise { code := .illegalCommand, cause := cause } s)

/-- One event of the host. A reset that arrives during a command aborts it without a response (R240). -/
def serveEvent (e : HostEvent) (s : State) : Host.Outcome State Fault Refusal :=
  match e with
  | .command p => servePacket p s
  | .reset => .next (hardwareReset s)
  | .resetDuring _ => .next (hardwareReset s)

/-- The machine takes the host's next event; with none it is idle and keeps all its state (R217). -/
def serve (s : State) : Host.Outcome State Fault Refusal :=
  match s.inputs with
  | [] => .next s
  | e :: rest => serveEvent e { s with inputs := rest }

/-- The host puts a packet at the head of what it is going to send. -/
def sendFirst (p : Packet) (s : State) : State := { s with inputs := .command p :: s.inputs }

end Sys2Proof.Machine
end

