-- ==== Sys2Proof/Machine/Step.lean ====
section
/-! DEFINITION. One step of the machine, and where a command is placed for the next step to run it. -/

namespace Sys2Proof.Machine

/-- One step: the host's next event, whole (R4). -/
def step (s : State) : Host.Outcome State Fault Refusal := serve s

/-- `s` with the command whose bits are `w` next on the port; the bits from `nbits` up are zero. -/
def State.withFetchWord (s : State) (nbits w : Nat) : State := sendFirst (packetOfBits (w % 2 ^ nbits)) s

end Sys2Proof.Machine
end

