-- ==== Sys2Proof/Machine/Assembler.lean ====
section
/-! DEFINITION. The assembler syntax (R83, R84): one command a line, read from characters and assembled into a
packet. It stands outside the block: no step uses it. -/

namespace Sys2Proof.Machine

/-- A binary64 operand as written (R83). -/
inductive Literal where
  /-- A decimal literal: sign, all its digits as one number, and the power of ten they are scaled by. -/
  | decimal (neg : Bool) (digits : Nat) (exp10 : Int)
  /-- A C99 hexadecimal literal: sign, all its digits as one number, and the power of two. -/
  | hexFloat (neg : Bool) (digits : Nat) (exp2 : Int)
  /-- `bits:0x` and sixteen hexadecimal digits. -/
  | bits (w : Word64)
  /-- `inf` or `-inf`. -/
  | inf (neg : Bool)
  /-- `nan`. -/
  | nan
  deriving DecidableEq, Repr

/-- One line of assembler text (R83). -/
inductive AsmLine where
  | configure (fs : Literal) (osr : Int)
  | initRun (ratio : Int) (fc mas fsens : Literal)
  | processSample (x : Literal)
  /-- `.illegal <CMD hex>`: a packet with that command word and zero operands. -/
  | illegal (cmd : Word32)
  deriving DecidableEq, Repr

/-- Why a line gives no packet. -/
inductive AsmError where
  | unknownMnemonic
  | operandCount
  | badOperand
  /-- An integer operand outside the range of `i32` (R74). -/
  | integerRange
  deriving DecidableEq, Repr

/-- `digits * base ^ exp` rounded to the nearest binary64 value, ties to even (R83). -/
def scaledF64 (neg : Bool) (digits base : Nat) (exp : Int) : F64 :=
  if 0 ≤ exp then pack neg (roundMag (digits * base ^ exp.toNat * scale) 1)
  else pack neg (roundMag (digits * scale) (base ^ (-exp).toNat))

/-- The value of a literal (R83). -/
def literalF64 : Literal → F64
  | .decimal neg digits exp10 => scaledF64 neg digits 10 exp10
  | .hexFloat neg digits exp2 => scaledF64 neg digits 2 exp2
  | .bits w => w
  | .inf neg => pack neg infMag
  | .nan => 0x7ff8000000000000#64

/-- The packet of an instruction whose integer operand fits. -/
def assembleInstr (i : Instr) : Except AsmError Packet :=
  if i.wf then .ok (encode i) else .error .integerRange

/-- The packet of a line (R83). -/
def assemble : AsmLine → Except AsmError Packet
  | .configure fs osr => assembleInstr (.configure (literalF64 fs) osr)
  | .initRun ratio fc mas fsens =>
    assembleInstr (.initRun ratio (literalF64 fc) (literalF64 mas) (literalF64 fsens))
  | .processSample x => assembleInstr (.processSample (literalF64 x))
  | .illegal cmd => .ok { cmd := cmd, op0 := 0#64, op1 := 0#64, op2 := 0#64, op3 := 0#64 }

/-- The value of a digit in a base up to 16. -/
def digitValue (base : Nat) (c : Char) : Option Nat :=
  let n := c.toNat
  let v :=
    if 48 ≤ n ∧ n ≤ 57 then n - 48
    else if 97 ≤ n ∧ n ≤ 102 then n - 87
    else if 65 ≤ n ∧ n ≤ 70 then n - 55
    else 16
  if v < base then some v else none

/-- The digits at the head of the characters: the number they extend `acc` to, how many there are with
`count` before them, and the characters after them. -/
def takeDigits (base acc count : Nat) : List Char → Nat × Nat × List Char
  | [] => (acc, count, [])
  | c :: cs =>
    match digitValue base c with
    | some d => takeDigits base (acc * base + d) (count + 1) cs
    | none => (acc, count, c :: cs)

/-- An optional sign; true for a minus. -/
def takeSign : List Char → Bool × List Char
  | '-' :: cs => (true, cs)
  | '+' :: cs => (false, cs)
  | cs => (false, cs)

/-- The characters after `lead`, if they begin with it. -/
def dropLead : List Char → List Char → Option (List Char)
  | [], cs => some cs
  | _ :: _, [] => none
  | l :: ls, c :: cs => if l = c then dropLead ls cs else none

/-- An integer operand: decimal digits with an optional sign, and nothing after them. -/
def parseInt (cs : List Char) : Option Int :=
  let signed := takeSign cs
  let run := takeDigits 10 0 0 signed.2
  if run.2.1 = 0 ∨ run.2.2 ≠ [] then none
  else some (if signed.1 then -(run.1 : Int) else (run.1 : Int))

/-- The digits of a literal with an optional point: all digits as one number, how many stand after the
point, and the characters after them. -/
def takeMantissa (base : Nat) (cs : List Char) : Option (Nat × Nat × List Char) :=
  let whole := takeDigits base 0 0 cs
  match whole.2.2 with
  | '.' :: rest =>
    let frac := takeDigits base whole.1 0 rest
    if whole.2.1 + frac.2.1 = 0 then none else some (frac.1, frac.2.1, frac.2.2)
  | rest => if whole.2.1 = 0 then none else some (whole.1, 0, rest)

/-- A decimal literal without its sign. -/
def parseDecimal (neg : Bool) (cs : List Char) : Option Literal :=
  match takeMantissa 10 cs with
  | none => none
  | some (digits, fracDigits, []) => some (.decimal neg digits (-(fracDigits : Int)))
  | some (digits, fracDigits, c :: rest) =>
    if c = 'e' ∨ c = 'E' then
      (parseInt rest).map (fun e => .decimal neg digits (e - (fracDigits : Int)))
    else none

/-- A hexadecimal literal after its sign and prefix: a mantissa, `p` or `P`, a decimal exponent, and nothing
after it (DESIGN CHOICE, assumption 11: no suffix is read). -/
def parseHexFloat (neg : Bool) (cs : List Char) : Option Literal :=
  match takeMantissa 16 cs with
  | some (digits, fracDigits, c :: rest) =>
    if c = 'p' ∨ c = 'P' then
      (parseInt rest).map (fun e => .hexFloat neg digits (e - 4 * (fracDigits : Int)))
    else none
  | _ => none

/-- Hexadecimal digits after `0x`, at most `most` and nothing after them. -/
def parseHexWord (most : Nat) (cs : List Char) : Option (Nat × Nat) :=
  match dropLead ['0', 'x'] cs with
  | none => none
  | some rest =>
    let run := takeDigits 16 0 0 rest
    if run.2.1 = 0 ∨ most < run.2.1 ∨ run.2.2 ≠ [] then none else some (run.1, run.2.1)

/-- The characters after a hexadecimal prefix, `0x` or `0X` (C99). -/
def dropHexPrefix (cs : List Char) : Option (List Char) := (dropLead ['0', 'x'] cs).or (dropLead ['0', 'X'] cs)

/-- A binary64 operand (R83). DESIGN CHOICE (assumption 11): which spellings beside those R83 writes out are
read; the prefix of a raw word and the special spellings are lower case. -/
def parseLiteral (cs : List Char) : Option Literal :=
  if cs = ['n', 'a', 'n'] then some .nan
  else if cs = ['i', 'n', 'f'] then some (.inf false)
  else if cs = ['-', 'i', 'n', 'f'] then some (.inf true)
  else
    match dropLead ['b', 'i', 't', 's', ':'] cs with
    | some rest =>
      match parseHexWord 16 rest with
      | some (w, 16) => some (.bits (BitVec.ofNat 64 w))
      | _ => none
    | none =>
      let signed := takeSign cs
      match dropHexPrefix signed.2 with
      | some rest => parseHexFloat signed.1 rest
      | none => parseDecimal signed.1 signed.2

/-- The characters without white space at either end. -/
def trimSpaces (cs : List Char) : List Char :=
  ((cs.dropWhile Char.isWhitespace).reverse.dropWhile Char.isWhitespace).reverse

/-- The pieces between commas. -/
def splitCommas : List Char → List (List Char)
  | [] => [[]]
  | c :: cs =>
    if c = ',' then [] :: splitCommas cs
    else
      match splitCommas cs with
      | [] => [[c]]
      | piece :: pieces => (c :: piece) :: pieces

/-- The operands of a line, in order, without the spaces around them. -/
def operandsOf (cs : List Char) : List (List Char) := (splitCommas cs).map trimSpaces

/-- The operands of CONFIGURE. -/
def parseConfigure (ops : List (List Char)) : Except AsmError AsmLine :=
  match ops with
  | [fs, osr] =>
    match parseLiteral fs, parseInt osr with
    | some fs, some osr => .ok (.configure fs osr)
    | _, _ => .error .badOperand
  | _ => .error .operandCount

/-- The operands of INIT_RUN. -/
def parseInitRun (ops : List (List Char)) : Except AsmError AsmLine :=
  match ops with
  | [ratio, fc, mas, fsens] =>
    match parseInt ratio, parseLiteral fc, parseLiteral mas, parseLiteral fsens with
    | some ratio, some fc, some mas, some fsens => .ok (.initRun ratio fc mas fsens)
    | _, _, _, _ => .error .badOperand
  | _ => .error .operandCount

/-- The operand of PROCESS_SAMPLE. -/
def parseProcessSample (ops : List (List Char)) : Except AsmError AsmLine :=
  match ops with
  | [x] =>
    match parseLiteral x with
    | some x => .ok (.processSample x)
    | none => .error .badOperand
  | _ => .error .operandCount

/-- The operand of `.illegal`. DESIGN CHOICE (assumption 11): `0x` in lower case and one to eight digits; R83
says only that it is hexadecimal. -/
def parseIllegal (ops : List (List Char)) : Except AsmError AsmLine :=
  match ops with
  | [cmd] =>
    match parseHexWord 8 cmd with
    | some (w, _) => .ok (.illegal (BitVec.ofNat 32 w))
    | none => .error .badOperand
  | _ => .error .operandCount

/-- One line of text: a mnemonic, white space, operands between commas (R83). -/
def parseLine (cs : List Char) : Except AsmError AsmLine :=
  let line := trimSpaces cs
  let mnemonic := line.takeWhile (fun c => !c.isWhitespace)
  let ops := operandsOf (line.dropWhile (fun c => !c.isWhitespace))
  if mnemonic = "CONFIGURE".toList then parseConfigure ops
  else if mnemonic = "INIT_RUN".toList then parseInitRun ops
  else if mnemonic = "PROCESS_SAMPLE".toList then parseProcessSample ops
  else if mnemonic = ".illegal".toList then parseIllegal ops
  else .error .unknownMnemonic

/-- A line of text as the packet it assembles to (R83). -/
def assembleText (cs : List Char) : Except AsmError Packet :=
  match parseLine cs with
  | .error e => .error e
  | .ok line => assemble line

end Sys2Proof.Machine
end

