-- ==== Sys2Proof/Machine/Instances.lean ====
section
/-! DEFINITION. Building an instance from a parameter set (R5, R6, R243), and several instances side by
side (R215). -/

namespace Sys2Proof.Machine

/-- A valid parameter set (R6). -/
def validParams (p : Params) : Bool :=
  decide (1 ≤ p.maxDelay) && decide (p.maxDelay ≤ 2 ^ 31) && isFinite p.b0 && isFinite p.b1
    && isFinite p.a1 && fgt posOne (fabs p.a1)

/-- An instance is built from a valid parameter set only (R6). -/
def build (p : Params) : Option State := if validParams p then some (State.resetWith p) else none

/-- Instance `k` of a system takes a step; the others do nothing (R215). `none`: there is no instance `k`.
DESIGN CHOICE (assumptions 4, 16): instances at the same draw number draw the same NaN. -/
def systemStep (k : Nat) (sys : List State) : Option (Host.Outcome (List State) Fault Refusal) :=
  match sys[k]? with
  | none => none
  | some s =>
    match step s with
    | .next t => some (.next (sys.set k t))
    | .fault r => some (.fault r)
    | .refused r => some (.refused r)

end Sys2Proof.Machine
end

