-- ==== Sys2Proof/Safety.lean ====
section
/-! DEFINITION. What claims about the block are stated in: the invariants of R37, runs of packets, equality up
to the payload of a NaN (R10, R18), and the exactness of a rounding (R8). -/

namespace Sys2Proof.Machine

/-- The conditions on the configuration registers in CONFIGURED and RUNNING (R22 to R26, R37). -/
def ConfigOk (p : Params) (b : Block) : Prop :=
  isFinite b.fs = true ∧ fgt b.fs posZero = true ∧
  4 ≤ b.osr ∧ b.osr ≤ 2147483644 ∧ b.osr % 4 = 0 ∧
  (b.period : Int) = b.osr ∧ b.quarter = b.period / 4 ∧
  (arithOf p).fdiv b.fs (f64OfInt b.osr) = some b.flo ∧ fgt b.flo posZero = true

/-- The run state is cleared: what CONFIGURED has beside its configuration (R37). -/
def RunCleared (b : Block) : Prop :=
  b.dratio = 0 ∧ b.fc = posZero ∧ b.mas = posZero ∧ b.fsens = posZero ∧ b.phasedev = posZero ∧
  b.delay = 0 ∧ b.loIdx = 0 ∧ b.dlyIdx = 0 ∧ b.iBuf = [] ∧ b.qBuf = [] ∧
  b.fI = Filter.zero ∧ b.fQ = Filter.zero ∧ b.fOut = Filter.zero

/-- A delay buffer is in canonical form and holds nothing outside its active part (R35, R143). -/
def BufferOk (delay : Nat) (m : Memory) : Prop := m.wf ∧ ∀ c ∈ m, c.1 < delay

/-- The conditions on the run state in RUNNING (R28 to R35, R37). -/
def RunOk (maxDelay : Nat) (b : Block) : Prop :=
  1 ≤ b.dratio ∧ inI32 b.dratio = true ∧ isFinite b.fc = true ∧ feq b.flo b.fc = false ∧
  1 ≤ b.delay ∧ b.delay ≤ maxDelay ∧ b.loIdx < b.period ∧ b.dlyIdx < b.delay ∧
  BufferOk b.delay b.iBuf ∧ BufferOk b.delay b.qBuf

/-- The invariant of R37 for the lifecycle state the block is in. -/
def BlockInv (p : Params) (b : Block) : Prop :=
  match b.state with
  | .unconfigured => b = Block.reset
  | .configured => ConfigOk p b ∧ RunCleared b
  | .running => ConfigOk p b ∧ RunOk p.maxDelay b

/-- The machine's invariant: a valid parameter set (R6) and the block's invariant (R37). -/
def StateInv (s : State) : Prop := validParams s.params = true ∧ BlockInv s.params s.block

/-- Packets served one after another, stopping at the first stop. -/
def runPackets : List Packet → State → Host.Outcome State Fault Refusal
  | [], s => .next s
  | p :: ps, s =>
    match servePacket p s with
    | .next t => runPackets ps t
    | .fault r => .fault r
    | .refused r => .refused r

/-- The host is going to send these packets before anything else. -/
def sendPackets (ps : List Packet) (s : State) : State :=
  { s with inputs := ps.map HostEvent.command ++ s.inputs }

/-- True for the packets of PROCESS_SAMPLE. -/
def isSample (p : Packet) : Bool :=
  match decode p with
  | .command (.processSample _) => true
  | _ => false

/-- The last response given has an `ERR` field that is not zero (R76). -/
def lastIsError (s : State) : Bool :=
  match s.responses.getLast? with
  | some r => r.status.extractLsb' 0 4 != 0#4
  | none => false

/-- Served from `s`, every packet is a PROCESS_SAMPLE or is answered by an error, for as long as the machine
goes on: the packets stay within one run of the spec (its glossary), since no CONFIGURE or INIT_RUN succeeds. -/
def staysInRun : List Packet → State → Bool
  | [], _ => true
  | p :: ps, s =>
    match servePacket p s with
    | .next t => (isSample p || lastIsError t) && staysInRun ps t
    | _ => true

/-- The same value up to the sign and payload of a NaN (R10). -/
def SameF (a b : F64) : Prop := a = b ∨ (isNaN a = true ∧ isNaN b = true)

/-- The same filter registers up to NaN payloads. -/
def SameFilter (f g : Filter) : Prop := SameF f.bufIn g.bufIn ∧ SameF f.bufOut g.bufOut

/-- The same buffer entries up to NaN payloads. -/
def SameMemory (m k : Memory) : Prop := List.Forall₂ (fun c d => c.1 = d.1 ∧ SameF c.2 d.2) m k

/-- The same block up to NaN payloads. -/
def SameBlock (b c : Block) : Prop :=
  b.state = c.state ∧ SameF b.fs c.fs ∧ b.osr = c.osr ∧ SameF b.flo c.flo ∧ b.period = c.period ∧
  b.quarter = c.quarter ∧ b.dratio = c.dratio ∧ SameF b.fc c.fc ∧ SameF b.mas c.mas ∧
  SameF b.fsens c.fsens ∧ b.delay = c.delay ∧ SameF b.phasedev c.phasedev ∧ b.loIdx = c.loIdx ∧
  b.dlyIdx = c.dlyIdx ∧ SameMemory b.iBuf c.iBuf ∧ SameMemory b.qBuf c.qBuf ∧
  SameFilter b.fI c.fI ∧ SameFilter b.fQ c.fQ ∧ SameFilter b.fOut c.fOut

/-- The same response up to NaN payloads in its result words. -/
def SameResponse (r q : Response) : Prop :=
  r.status = q.status ∧ SameF r.res0 q.res0 ∧ SameF r.res1 q.res1

/-- The same machine up to NaN payloads; the number of draws made may differ. -/
def SameState (s t : State) : Prop :=
  SameBlock s.block t.block ∧ s.params = t.params ∧ s.inputs = t.inputs ∧
  List.Forall₂ SameResponse s.responses t.responses

/-- The same outcome of a step up to NaN payloads. -/
def SameOutcome : Host.Outcome State Fault Refusal → Host.Outcome State Fault Refusal → Prop
  | .next s, .next t => SameState s t
  | .fault r, .fault q => r = q
  | .refused r, .refused q => r = q
  | _, _ => False

/-- `m` is a magnitude nearest to `n / d` units among all finite magnitudes, the even one at a tie (R8). -/
def NearestEven (n d m : Nat) : Prop :=
  ∀ m' < infMag, m' ≠ m →
    let err := ((n : Int) - (d : Int) * (unitsOf m : Int)).natAbs
    let err' := ((n : Int) - (d : Int) * (unitsOf m' : Int)).natAbs
    err < err' ∨ (err = err' ∧ m % 2 = 0)

end Sys2Proof.Machine
end

