-- ==== Sys2Proof/Certificates/Slice0/Obligations.lean ====
section
/-! DEFINITION. The statements about the block for the provers. -/

open Sys2Proof Sys2Proof.Machine

/-! ### Encoding -/

/-- Decoding the packet of a well-formed command gives the command back, with every operand at every value
its encoding admits (R70 to R74, R81, R83). -/
def Obligations.DecodeOfEncodeIsTheCommand : Prop :=
  ∀ i : Instr, i.wf = true → decode (encode i) = .command i

/-- A packet that decodes to a command agrees with the packet of that command in every bit the command
reads, and the command is well formed (R74, R75). -/
def Obligations.EncodeOfDecodeKeepsEveryReadBit : Prop :=
  ∀ (p : Packet) (i : Instr), decode p = .command i →
    i.wf = true ∧ (encode i).cmd = p.cmd ∧
    match i with
    | .configure _ _ => (encode i).op0 = p.op0 ∧ (encode i).op1.setWidth 32 = p.op1.setWidth 32
    | .initRun _ _ _ _ =>
      (encode i).op0.setWidth 32 = p.op0.setWidth 32 ∧ (encode i).op1 = p.op1 ∧ (encode i).op2 = p.op2 ∧
      (encode i).op3 = p.op3
    | .processSample _ => (encode i).op0 = p.op0

/-- The five cases of R81 with the operands of R74: the three command words, an unassigned opcode, and an
assigned opcode with a reserved field that is not zero. -/
def Obligations.DecodingIsTheFiveCases : Prop :=
  ∀ p : Packet,
    (p.cmd = 0x00000001#32 → decode p = .command (.configure p.op0 (p.op1.setWidth 32).toInt)) ∧
    (p.cmd = 0x00000002#32 →
      decode p = .command (.initRun (p.op0.setWidth 32).toInt p.op1 p.op2 p.op3)) ∧
    (p.cmd = 0x00000003#32 → decode p = .command (.processSample p.op0)) ∧
    (p.cmd.toNat % 256 ∉ [1, 2, 3] → decode p = .illegal 1) ∧
    (p.cmd.toNat % 256 ∈ [1, 2, 3] → p.cmd.toNat / 256 ≠ 0 → decode p = .illegal 2)

/-- Two packets with the same command word and the same bits in the operands that command reads have the
same outcome: the ignored bits have no effect on the state or the response (R74, R75). -/
def Obligations.IgnoredBitsHaveNoEffect : Prop :=
  ∀ (p q : Packet) (s : State), p.cmd = q.cmd →
    (p.cmd = 0x00000001#32 → p.op0 = q.op0 ∧ p.op1.setWidth 32 = q.op1.setWidth 32) →
    (p.cmd = 0x00000002#32 →
      p.op0.setWidth 32 = q.op0.setWidth 32 ∧ p.op1 = q.op1 ∧ p.op2 = q.op2 ∧ p.op3 = q.op3) →
    (p.cmd = 0x00000003#32 → p.op0 = q.op0) →
    servePacket p s = servePacket q s

/-- The worked encodings of R85, written out word by word, decode to the commands they stand for. -/
def Obligations.WorkedEncodingsDecode : Prop :=
  decode ⟨0x00000001, 0x41186a0000000000, 0x0000000000000004, 0, 0⟩
    = .command (.configure 0x41186a0000000000 4) ∧
  decode ⟨0x00000002, 0x0000000000000002, 0x40fa964000000000, 0x3ff0000000000000, 0x3ff0000000000000⟩
    = .command (.initRun 2 0x40fa964000000000 0x3ff0000000000000 0x3ff0000000000000) ∧
  decode ⟨0x00000003, 0x3ff0000000000000, 0, 0, 0⟩ = .command (.processSample 0x3ff0000000000000) ∧
  decode ⟨0x00000001, 0x41186a0000000000, 0x00000000fffffffc, 0, 0⟩
    = .command (.configure 0x41186a0000000000 (-4)) ∧
  decode ⟨0x00000103, 0, 0, 0, 0⟩ = .illegal 2

/-- On a byte-wide transport the words of a command go in the order CMD, OP0 to OP3, and those of a response in
the order STATUS, RES0, RES1, each least significant byte first; a stream of bytes that begins with a packet's
bytes decodes as that packet, and fewer than 36 bytes decode to nothing (R56, R57). -/
def Obligations.BytesOfAPacketDecodeAsThePacket : Prop :=
  (∀ (p : Packet) (rest : List Byte), decodeBytes (packetBytes p ++ rest) = .ok (decode p, rest)) ∧
  (∀ (p : Packet) (k : Nat),
    (packetBytes p).length = 36 ∧
    (k < 4 → (packetBytes p)[k]? = some (p.cmd.extractLsb' (8 * k) 8)) ∧
    (k < 8 →
      (packetBytes p)[4 + k]? = some (p.op0.extractLsb' (8 * k) 8) ∧
      (packetBytes p)[12 + k]? = some (p.op1.extractLsb' (8 * k) 8) ∧
      (packetBytes p)[20 + k]? = some (p.op2.extractLsb' (8 * k) 8) ∧
      (packetBytes p)[28 + k]? = some (p.op3.extractLsb' (8 * k) 8))) ∧
  (∀ (r : Response) (k : Nat),
    (responseBytes r).length = 20 ∧
    (k < 4 → (responseBytes r)[k]? = some (r.status.extractLsb' (8 * k) 8)) ∧
    (k < 8 →
      (responseBytes r)[4 + k]? = some (r.res0.extractLsb' (8 * k) 8) ∧
      (responseBytes r)[12 + k]? = some (r.res1.extractLsb' (8 * k) 8))) ∧
  (∀ bs : List Byte, bs.length < 36 → decodeBytes bs = .error (.partialPacket bs.length))

/-- The assembler's spellings and worked lines (R83, R85). -/
def Obligations.WorkedLinesAssemble : Prop :=
  assembleText "CONFIGURE 400000.0, 4".toList = .ok ⟨0x00000001, 0x41186a0000000000, 4, 0, 0⟩ ∧
  assembleText "INIT_RUN 2, 108900.0, 1.0, 1.0".toList
    = .ok ⟨0x00000002, 2, 0x40fa964000000000, 0x3ff0000000000000, 0x3ff0000000000000⟩ ∧
  assembleText "PROCESS_SAMPLE 1.0".toList = .ok ⟨0x00000003, 0x3ff0000000000000, 0, 0, 0⟩ ∧
  assembleText "CONFIGURE 400000.0, -4".toList
    = .ok ⟨0x00000001, 0x41186a0000000000, 0x00000000fffffffc, 0, 0⟩ ∧
  assembleText ".illegal 0x00000103".toList = .ok ⟨0x00000103, 0, 0, 0, 0⟩ ∧
  assembleText "PROCESS_SAMPLE nan".toList = .ok ⟨0x00000003, 0x7ff8000000000000, 0, 0, 0⟩ ∧
  assembleText "PROCESS_SAMPLE -inf".toList = .ok ⟨0x00000003, 0xfff0000000000000, 0, 0, 0⟩ ∧
  assembleText "PROCESS_SAMPLE -0.0".toList = .ok ⟨0x00000003, 0x8000000000000000, 0, 0, 0⟩ ∧
  assembleText "PROCESS_SAMPLE 0x1.8p+1".toList = .ok ⟨0x00000003, 0x4008000000000000, 0, 0, 0⟩

/-! ### The step -/

/-- A step whose next event is a packet that decodes to a command is that command's meaning, performed with
the event taken off the port. -/
def Obligations.StepRunsTheDecodedCommand : Prop :=
  ∀ (s : State) (p : Packet) (rest : List HostEvent) (i : Instr),
    s.inputs = .command p :: rest → decode p = .command i → i.wf = true →
    step s = exec i { s with inputs := rest }

/-- An illegal packet changes nothing and is answered IllegalCommand in every lifecycle state: cause 1 for an
unassigned opcode, whatever its reserved field, cause 2 for an assigned one with a reserved field that is not
zero (R72, R73, R204, R206). -/
def Obligations.IllegalPacketIsAnsweredAndChangesNothing : Prop :=
  ∀ (s : State) (p : Packet) (rest : List HostEvent), s.inputs = .command p :: rest →
    (p.cmd.toNat % 256 ∉ [1, 2, 3] →
      step s = .next { s with
        inputs := rest
        responses := s.responses ++ [⟨BitVec.ofNat 32 (0x14 + 256 * stateNumber s.block.state), 0, 0⟩] }) ∧
    (p.cmd.toNat % 256 ∈ [1, 2, 3] → p.cmd.toNat / 256 ≠ 0 →
      step s = .next { s with
        inputs := rest
        responses := s.responses ++ [⟨BitVec.ofNat 32 (0x24 + 256 * stateNumber s.block.state), 0, 0⟩] })

/-- With nothing sent, the block is idle and keeps all its state (R217). -/
def Obligations.IdleBlockKeepsItsState : Prop :=
  ∀ s : State, s.inputs = [] → step s = .next s

/-- Hardware reset, between commands or during one, puts every field of the block at its reset value and
gives no response (R20, R240). -/
def Obligations.HardwareResetClearsTheBlock : Prop :=
  ∀ (s : State) (p : Packet) (rest : List HostEvent),
    s.inputs = .reset :: rest ∨ s.inputs = .resetDuring p :: rest →
    step s = .next { s with
      inputs := rest
      block :=
        { state := .unconfigured, fs := 0#64, osr := 0, flo := 0#64, period := 0, quarter := 0, dratio := 0
          fc := 0#64, mas := 0#64, fsens := 0#64, delay := 0, phasedev := 0#64, loIdx := 0, dlyIdx := 0
          iBuf := [], qBuf := [], fI := ⟨0#64, 0#64⟩, fQ := ⟨0#64, 0#64⟩, fOut := ⟨0#64, 0#64⟩ } } ∧
    ∀ k : Nat, Memory.read [] k = 0#64

/-! ### CONFIGURE -/

/-- A CONFIGURE whose operands pass the four checks writes every field of the block and answers
`0x00000100 / 0 / 0`, in every lifecycle state. It ends a run: PROCESS_SAMPLE then raises PrematureUse cause 2,
and no packet but an INIT_RUN takes the block out of CONFIGURED (R161, R162, R163). -/
def Obligations.ConfigureWritesEveryField : Prop :=
  ∀ (s : State) (fs flo : F64) (osr : Int),
    0 < osr → osr % 4 = 0 → isFinite fs = true → fgt fs posZero = true →
    (arithOf s.params).fdiv fs (f64OfInt osr) = some flo → fgt flo posZero = true →
    ∃ t, exec (.configure fs osr) s = .next t ∧
      t.block =
        { state := .configured, fs := fs, osr := osr, flo := flo, period := osr.toNat
          quarter := osr.toNat / 4, dratio := 0, fc := posZero, mas := posZero, fsens := posZero, delay := 0
          phasedev := posZero, loIdx := 0, dlyIdx := 0, iBuf := [], qBuf := []
          fI := ⟨posZero, posZero⟩, fQ := ⟨posZero, posZero⟩, fOut := ⟨posZero, posZero⟩ } ∧
      t.params = s.params ∧ t.inputs = s.inputs ∧ t.responses = s.responses ++ [⟨0x00000100#32, 0, 0⟩] ∧
      (∀ x, exec (.processSample x) t
        = .next { t with responses := t.responses ++ [⟨0x00000123#32, 0, 0⟩] }) ∧
      (∀ (v u : State) (p : Packet), v.block.state = .configured → servePacket p v = .next u →
        (∀ ratio fc mas fsens, decode p ≠ .command (.initRun ratio fc mas fsens)) →
        u.block.state = .configured)

/-- The first check of CONFIGURE that fails ends it: InvalidConfiguration with the cause of that check, and
nothing else changes (R161, R163, R201, R206). A quotient that is a NaN, which only primitives other than the
default can give here, is not greater than zero either. -/
def Obligations.ConfigureRaisesTheFirstFailingCheck : Prop :=
  ∀ (s : State) (fs : F64) (osr : Int) (cause : Nat),
    (osr ≤ 0 ∧ cause = 1) ∨
    (0 < osr ∧ osr % 4 ≠ 0 ∧ cause = 2) ∨
    (0 < osr ∧ osr % 4 = 0 ∧ (isFinite fs = false ∨ fgt fs posZero = false) ∧ cause = 3) ∨
    (0 < osr ∧ osr % 4 = 0 ∧ isFinite fs = true ∧ fgt fs posZero = true ∧
      (∀ flo, (arithOf s.params).fdiv fs (f64OfInt osr) = some flo → fgt flo posZero = false) ∧ cause = 4) →
    exec (.configure fs osr) s = .next { s with
      responses := s.responses ++
        [⟨BitVec.ofNat 32 (1 + 16 * cause + 256 * stateNumber s.block.state), 0, 0⟩] }

/-- No response depends on the power-on value of any field but `STATE`: two machines that agree outside the
block and are both UNCONFIGURED have given the same responses after any number of steps (R44). They agree in the
number of the next draw too, so that they draw the same NaNs (assumption 4). -/
def Obligations.PowerOnValuesAreUnobservable : Prop :=
  ∀ (k : Nat) (s t : State), s.block.state = .unconfigured → t.block.state = .unconfigured →
    s.params = t.params → s.inputs = t.inputs → s.responses = t.responses → s.nanDraws = t.nanDraws →
    match core.run k s, core.run k t with
    | .next s', .next t' => s'.responses = t'.responses ∧ s'.block.state = t'.block.state
    | .fault r, .fault q => r = q
    | .refused r, .refused q => r = q
    | _, _ => False

/-- With the default primitives the local-oscillator frequency of an accepted configuration is finite: a finite
`fs` over an integer of at least 4 cannot overflow (R24, R161). -/
def Obligations.LoFrequencyIsFinite : Prop :=
  ∀ (n : Nat) (fs : F64) (osr : Int), isFinite fs = true → 4 ≤ osr → osr ≤ 2147483647 →
    isFinite (fdiv ieeeArith n fs (f64OfInt osr)) = true

/-! ### INIT_RUN -/

/-- An INIT_RUN in CONFIGURED or RUNNING whose operands pass the checks resolves the delay by the formula of
R165, writes the run registers, clears the indices, buffers and filters, keeps the configuration, and answers
`0x00000200` with the delay and the phase deviation (R166 to R169), with the instance's own primitives (R5). The
functions `n` and `n'` number the draws of NaNs, which are left open (R10); with the default primitives no draw
reaches a delay quotient that is not a NaN, so any numbers do. -/
def Obligations.InitRunStartsARun : Prop :=
  ∀ (s : State) (ratio : Int) (fc mas fsens : F64) (n : Nat → Nat) (d : Nat),
    let A := arithOf s.params
    let q := fdiv A (n 3) (fmul A (n 1) (f64OfInt ratio) s.block.fs)
      (fmul A (n 2) posTwo (fabs (fsub A (n 0) s.block.flo fc)))
    (s.params.primitives = .binary64 ∨ ∀ i, n i = s.nanDraws + i) →
    s.block.state ≠ .unconfigured → 1 ≤ ratio → isFinite fc = true → feq s.block.flo fc = false →
    isNaN q = false → q ≠ posInf → roundHalfEven q = (d : Int) → 1 ≤ d → d ≤ s.params.maxDelay →
    ∃ (t : State) (n' : Nat → Nat), exec (.initRun ratio fc mas fsens) s = .next t ∧
      let pd := fmul A (n' 2) (fmul A (n' 1) fsens (fdiv A (n' 0) (f64OfInt d) s.block.fs)) mas
      t.block =
        { s.block with
          state := .running, dratio := ratio, fc := fc, mas := mas, fsens := fsens, phasedev := pd, delay := d
          loIdx := 0, dlyIdx := 0, iBuf := [], qBuf := []
          fI := ⟨posZero, posZero⟩, fQ := ⟨posZero, posZero⟩, fOut := ⟨posZero, posZero⟩ } ∧
      t.params = s.params ∧ t.inputs = s.inputs ∧
      t.responses = s.responses ++ [⟨0x00000200#32, BitVec.ofNat 64 d, pd⟩]

/-- INIT_RUN in UNCONFIGURED raises PrematureUse cause 1 whatever its operands; elsewhere the first check of
R166 that fails ends it with DegenerateParameters and the cause of that check. Nothing else changes (R202,
R203, R206, R207). A quotient of -inf, which R166 excludes and R13 does not round, falls under cause 4 here by the
model's choice (assumption 7). The function `n` numbers the draws of NaNs in the delay quotient: with the default
primitives the outcome is the same for every choice of them. -/
def Obligations.InitRunRaisesTheFirstFailingCheck : Prop :=
  ∀ (s : State) (ratio : Int) (fc mas fsens : F64) (n : Nat → Nat) (err cause : Nat),
    let A := arithOf s.params
    let q := fdiv A (n 3) (fmul A (n 1) (f64OfInt ratio) s.block.fs)
      (fmul A (n 2) posTwo (fabs (fsub A (n 0) s.block.flo fc)))
    (s.params.primitives = .binary64 ∨ ∀ i, n i = s.nanDraws + i) →
    (s.block.state = .unconfigured ∧ err = 3 ∧ cause = 1) ∨
    (s.block.state ≠ .unconfigured ∧ err = 2 ∧
      ((ratio < 1 ∧ cause = 1) ∨
       (1 ≤ ratio ∧ isFinite fc = false ∧ cause = 2) ∨
       (1 ≤ ratio ∧ isFinite fc = true ∧ feq s.block.flo fc = true ∧ cause = 3) ∨
       (1 ≤ ratio ∧ isFinite fc = true ∧ feq s.block.flo fc = false ∧
         ((isNaN q = true ∧ cause = 4) ∨
          (q = posInf ∧ cause = 5) ∨
          (isNaN q = false ∧ q ≠ posInf ∧ roundHalfEven q < 1 ∧ cause = 4) ∨
          (isNaN q = false ∧ q ≠ posInf ∧ (s.params.maxDelay : Int) < roundHalfEven q ∧
            1 ≤ roundHalfEven q ∧ cause = 5))))) →
    exec (.initRun ratio fc mas fsens) s = .next { s with
      responses := s.responses ++
        [⟨BitVec.ofNat 32 (err + 16 * cause + 256 * stateNumber s.block.state), 0, 0⟩] }

/-- A run starts from the same state each time: after a successful INIT_RUN nothing is left of the block but
its configuration (R174, R253). The two machines agree in the number of the next draw, so that they draw the same
NaNs (assumption 4). -/
def Obligations.InitRunForgetsTheEarlierRun : Prop :=
  ∀ (s t u : State) (r : Response) (ratio : Int) (fc mas fsens : F64),
    t.block.state ≠ .unconfigured →
    s.block.fs = t.block.fs → s.block.osr = t.block.osr → s.block.flo = t.block.flo →
    s.block.period = t.block.period → s.block.quarter = t.block.quarter →
    s.params = t.params → s.inputs = t.inputs → s.responses = t.responses → s.nanDraws = t.nanDraws →
    exec (.initRun ratio fc mas fsens) s = .next u → u.responses = s.responses ++ [r] →
    r.status = 0x00000200#32 →
    exec (.initRun ratio fc mas fsens) t = .next u

/-- In a state that meets the invariants, with the default primitives, the delay quotient of operands that pass
the checks before it is a NaN or has a clear sign bit: it is never negative (R166). -/
def Obligations.DelayQuotientIsNotNegative : Prop :=
  ∀ (s : State) (n : Nat) (ratio : Int) (fc : F64), StateInv s → s.params.primitives = .binary64 →
    s.block.state ≠ .unconfigured → 1 ≤ ratio → isFinite fc = true → feq s.block.flo fc = false →
    isNaN (delayQuotient s.params n s.block ratio fc) = true ∨
    signBit (delayQuotient s.params n s.block ratio fc) = false

/-! ### PROCESS_SAMPLE -/

/-- PROCESS_SAMPLE in RUNNING, with both indices in range, runs the pipeline of R171 with the formulas of
R100, R101, R103, R104, R120, R141, R144 and R145 in the instance's own primitives (R5), writes nothing else, and
answers `0x00000200` with the output. The function `n` numbers the draws of NaNs, which are left open (R10). -/
def Obligations.ProcessSampleRunsThePipeline : Prop :=
  ∀ (s : State) (x : F64), s.block.state = .running → s.block.loIdx < s.block.period →
    s.block.dlyIdx < s.block.delay →
    ∃ (t : State) (n : Nat → Nat), exec (.processSample x) s = .next t ∧
      let b := s.block
      let p := s.params
      let A := arithOf p
      let k := b.loIdx
      let iRaw := fmul A (n 0) x (if k < b.period / 2 then posOne else negOne)
      let qRaw := fmul A (n 1) x (if k < b.quarter ∨ k ≥ 3 * b.quarter then posOne else negOne)
      let iF := fsub A (n 5) (fadd A (n 3) (fmul A (n 2) iRaw p.b0) b.fI.bufIn)
        (fmul A (n 4) b.fI.bufOut p.a1)
      let qF := fsub A (n 10) (fadd A (n 8) (fmul A (n 7) qRaw p.b0) b.fQ.bufIn)
        (fmul A (n 9) b.fQ.bufOut p.a1)
      let iD := b.iBuf.read b.dlyIdx
      let qD := b.qBuf.read b.dlyIdx
      let polarOut := fsub A (n 14) (fmul A (n 12) iF qD) (fmul A (n 13) qF iD)
      let y := fsub A (n 18) (fadd A (n 16) (fmul A (n 15) polarOut p.b0) b.fOut.bufIn)
        (fmul A (n 17) b.fOut.bufOut p.a1)
      t.block =
        { b with
          loIdx := (k + 1) % b.period, dlyIdx := (b.dlyIdx + 1) % b.delay
          iBuf := b.iBuf.write b.dlyIdx iF, qBuf := b.qBuf.write b.dlyIdx qF
          fI := ⟨fmul A (n 6) iRaw p.b1, iF⟩, fQ := ⟨fmul A (n 11) qRaw p.b1, qF⟩
          fOut := ⟨fmul A (n 19) polarOut p.b1, y⟩ } ∧
      t.params = p ∧ t.inputs = s.inputs ∧ t.responses = s.responses ++ [⟨0x00000200#32, y, 0⟩]

/-- PrematureUse: PROCESS_SAMPLE raises cause 1 in UNCONFIGURED and cause 2 in CONFIGURED, INIT_RUN raises cause 1
in UNCONFIGURED, whatever their operands, and nothing changes. In RUNNING, with both indices in range, every sample
is processed, NaNs and infinities included (R172, R203). -/
def Obligations.PrematureUseIsAnsweredAndChangesNothing : Prop :=
  ∀ (s : State) (x : F64),
    (s.block.state = .unconfigured → ∀ ratio fc mas fsens,
      exec (.initRun ratio fc mas fsens) s
        = .next { s with responses := s.responses ++ [⟨0x00000013#32, 0, 0⟩] }) ∧
    (s.block.state = .unconfigured →
      exec (.processSample x) s = .next { s with responses := s.responses ++ [⟨0x00000013#32, 0, 0⟩] }) ∧
    (s.block.state = .configured →
      exec (.processSample x) s = .next { s with responses := s.responses ++ [⟨0x00000123#32, 0, 0⟩] }) ∧
    (s.block.state = .running → s.block.loIdx < s.block.period → s.block.dlyIdx < s.block.delay →
      ∃ t y, exec (.processSample x) s = .next t ∧
        t.responses = s.responses ++ [⟨0x00000200#32, y, 0⟩])

/-- PROCESS_SAMPLE writes one pair of the delay line: the entry at `DLY_IDX` becomes the pair of filter
outputs, every other entry of both buffers reads as before, and the index goes on by one modulo `DELAY`
(R51, R141, R144). -/
def Obligations.ProcessSampleWritesOnePair : Prop :=
  ∀ (s : State) (x : F64), s.block.state = .running → s.block.loIdx < s.block.period →
    s.block.dlyIdx < s.block.delay → s.block.iBuf.wf → s.block.qBuf.wf →
    ∃ t, exec (.processSample x) s = .next t ∧
      t.block.iBuf.read s.block.dlyIdx = t.block.fI.bufOut ∧
      t.block.qBuf.read s.block.dlyIdx = t.block.fQ.bufOut ∧
      (∀ k, k ≠ s.block.dlyIdx →
        t.block.iBuf.read k = s.block.iBuf.read k ∧ t.block.qBuf.read k = s.block.qBuf.read k) ∧
      t.block.dlyIdx = (s.block.dlyIdx + 1) % s.block.delay

/-- The frame of PROCESS_SAMPLE, in any lifecycle state: of the block it writes only the two indices, one
entry of each buffer and the six filter registers (R171). -/
def Obligations.ProcessSampleFrame : Prop :=
  ∀ (s t : State) (x : F64), exec (.processSample x) s = .next t →
    t.block.state = s.block.state ∧ t.block.fs = s.block.fs ∧ t.block.osr = s.block.osr ∧
    t.block.flo = s.block.flo ∧ t.block.period = s.block.period ∧ t.block.quarter = s.block.quarter ∧
    t.block.dratio = s.block.dratio ∧ t.block.fc = s.block.fc ∧ t.block.mas = s.block.mas ∧
    t.block.fsens = s.block.fsens ∧ t.block.delay = s.block.delay ∧
    t.block.phasedev = s.block.phasedev ∧ t.params = s.params ∧ t.inputs = s.inputs ∧
    ∀ k, k ≠ s.block.dlyIdx →
      t.block.iBuf.read k = s.block.iBuf.read k ∧ t.block.qBuf.read k = s.block.qBuf.read k

/-- The frame of INIT_RUN: whatever its outcome, the configuration registers, the parameters and what the
host will send are unchanged (R167). -/
def Obligations.InitRunFrame : Prop :=
  ∀ (s t : State) (ratio : Int) (fc mas fsens : F64), exec (.initRun ratio fc mas fsens) s = .next t →
    t.block.fs = s.block.fs ∧ t.block.osr = s.block.osr ∧ t.block.flo = s.block.flo ∧
    t.block.period = s.block.period ∧ t.block.quarter = s.block.quarter ∧
    t.params = s.params ∧ t.inputs = s.inputs

/-- PROCESS_SAMPLE stops only in RUNNING with an index outside its table or its delay line, which the rules
of those accesses exclude (R51, R52, R100). -/
def Obligations.SampleStopsOnlyOutsideItsTables : Prop :=
  ∀ (s : State) (x : F64) (f : Fault), exec (.processSample x) s = .fault f ↔
    s.block.state = .running ∧
    ((f = .loIndexOutOfRange ∧ s.block.period ≤ s.block.loIdx) ∨
     (f = .delayIndexOutOfRange ∧ s.block.loIdx < s.block.period ∧ s.block.delay ≤ s.block.dlyIdx))

/-- A NaN or an infinity poisons a run (R173, R255), with the default primitives. A NaN sample, or a NaN left in
the output filter, makes the output and the output filter's register some NaN. A sample that is not finite makes
both channel filters' registers not finite, each of the three filters stays so once it is, and the output is not
finite on that sample or while any of them is. -/
def Obligations.NaNPoisonsTheRun : Prop :=
  ∀ (s : State) (x : F64), s.params.primitives = .binary64 → s.block.state = .running →
    s.block.loIdx < s.block.period → s.block.dlyIdx < s.block.delay →
    ∃ t y, exec (.processSample x) s = .next t ∧ t.responses = s.responses ++ [⟨0x00000200#32, y, 0⟩] ∧
      (isNaN x = true ∨ isNaN s.block.fOut.bufOut = true → isNaN y = true ∧ isNaN t.block.fOut.bufOut = true) ∧
      (isFinite x = false ∨ isFinite s.block.fI.bufOut = false → isFinite t.block.fI.bufOut = false) ∧
      (isFinite x = false ∨ isFinite s.block.fQ.bufOut = false → isFinite t.block.fQ.bufOut = false) ∧
      (isFinite x = false ∨ isFinite s.block.fI.bufOut = false ∨ isFinite s.block.fQ.bufOut = false ∨
        isFinite s.block.fOut.bufOut = false → isFinite y = false ∧ isFinite t.block.fOut.bufOut = false)

/-- Once poisoned, a run stays so (R173, R255), with the default primitives: from a sample that is a NaN, or a NaN
in the output filter, every output of the run is some NaN; from a sample that is not finite, or a filter register
that is not, every output of the run is not finite. Failing commands may stand between the samples. -/
def Obligations.PoisonLastsForTheRun : Prop :=
  ∀ (s : State) (x : F64) (p : Packet) (ps : List Packet), s.params.primitives = .binary64 →
    s.block.state = .running → s.block.loIdx < s.block.period → s.block.dlyIdx < s.block.delay →
    decode p = .command (.processSample x) → staysInRun (p :: ps) s = true →
    ∃ (t : State) (outs : List Response), runPackets (p :: ps) s = .next t ∧
      t.responses = s.responses ++ outs ∧ outs.length = ps.length + 1 ∧
      (isNaN x = true ∨ isNaN s.block.fOut.bufOut = true →
        ∀ c ∈ (p :: ps).zip outs, isSample c.1 = true → isNaN c.2.res0 = true) ∧
      (isFinite x = false ∨ isFinite s.block.fI.bufOut = false ∨ isFinite s.block.fQ.bufOut = false ∨
        isFinite s.block.fOut.bufOut = false →
        ∀ c ∈ (p :: ps).zip outs, isSample c.1 = true → isFinite c.2.res0 = false)

/-! ### Whole-machine rules -/

/-- A command that raises an error writes nothing: the state after it differs only by the response, which is
`ERR | (CAUSE << 4) | (STATE << 8)` with two zero result words (R206). -/
def Obligations.ErrorsWriteNothing : Prop :=
  ∀ (s t : State) (p : Packet) (r : Response), servePacket p s = .next t →
    t.responses = s.responses ++ [r] → r.status.extractLsb' 0 4 ≠ 0#4 →
    t = { s with responses := s.responses ++ [r] } ∧ r.res0 = 0#64 ∧ r.res1 = 0#64 ∧
    ∃ err cause : Nat, 1 ≤ err ∧ err ≤ 4 ∧ 1 ≤ cause ∧ cause ≤ 5 ∧
      r.status = BitVec.ofNat 32 err ||| BitVec.ofNat 32 cause <<< 4
        ||| BitVec.ofNat 32 (stateNumber s.block.state) <<< 8

/-- Every packet that completes gives exactly one response, whose STATUS word reports the lifecycle state
after the command, an error number of at most 4, a cause that is zero on success, and zeros above (R76, R77). -/
def Obligations.EveryPacketGetsOneResponse : Prop :=
  ∀ (s t : State) (p : Packet), servePacket p s = .next t →
    ∃ r : Response, t.responses = s.responses ++ [r] ∧
      (r.status.extractLsb' 0 4).toNat ≤ 4 ∧
      (r.status.extractLsb' 0 4 = 0#4 → r.status.extractLsb' 4 4 = 0#4) ∧
      (r.status.extractLsb' 8 2).toNat = stateNumber t.block.state ∧
      r.status.extractLsb' 10 22 = 0#22

/-- The transitions of the lifecycle state, its three numbers, and that every response reports it and never the
value 3 (R21). Success is an `ERR` field of zero. -/
def Obligations.LifecycleTransitions : Prop :=
  stateNumber .unconfigured = 0 ∧ stateNumber .configured = 1 ∧ stateNumber .running = 2 ∧
  (∀ (s t : State) (p : Packet) (r : Response), servePacket p s = .next t →
    t.responses = s.responses ++ [r] →
    (r.status.extractLsb' 8 2).toNat = stateNumber t.block.state ∧ r.status.extractLsb' 8 2 ≠ 3#2 ∧
    (r.status.extractLsb' 0 4 ≠ 0#4 → t.block.state = s.block.state) ∧
    (∀ fs osr, decode p = .command (.configure fs osr) → r.status.extractLsb' 0 4 = 0#4 →
      t.block.state = .configured) ∧
    (∀ ratio fc mas fsens, decode p = .command (.initRun ratio fc mas fsens) →
      r.status.extractLsb' 0 4 = 0#4 → s.block.state ≠ .unconfigured ∧ t.block.state = .running) ∧
    (∀ x, decode p = .command (.processSample x) → t.block.state = s.block.state)) ∧
  (∀ (s t : State) (p : Packet) (rest : List HostEvent),
    s.inputs = .reset :: rest ∨ s.inputs = .resetDuring p :: rest → step s = .next t →
    t.block.state = .unconfigured)

/-- No step changes the parameters of the instance (R5). -/
def Obligations.ParametersNeverChange : Prop :=
  ∀ s t : State, step s = .next t → t.params = s.params

/-- Every step keeps both delay buffers in their canonical form, from any state that has them so. -/
def Obligations.BuffersStayCanonical : Prop :=
  ∀ s t : State, s.block.iBuf.wf → s.block.qBuf.wf → step s = .next t →
    t.block.iBuf.wf ∧ t.block.qBuf.wf

/-- The invariants of R37 hold in the machine right after reset; the parameters there are the model's choice
(assumption 2). -/
def Obligations.InvariantHoldsAtReset : Prop := StateInv State.reset

/-- Every step keeps the invariants of R37. -/
def Obligations.EveryStepKeepsTheInvariant : Prop :=
  ∀ s t : State, StateInv s → step s = .next t → StateInv t

/-- No command in any state is undefined: from a state that meets the invariants of R37, every step, whatever
the host sends, answers a next state (R218). -/
def Obligations.NoStepStops : Prop :=
  ∀ s : State, StateInv s → ∃ t, step s = .next t

/-- With the default primitives the block is deterministic but for the sign and payload of NaNs: two machines that
differ only there, and in how many draws they have made, are the same up to that difference after any number of
steps (R10, R18, R176). It does not rest on the model's choice that equal draw numbers draw equal bits
(assumption 4). -/
def Obligations.NaNPayloadsNeverSteerTheBlock : Prop :=
  ∀ (k : Nat) (s t : State), s.params.primitives = .binary64 → SameState s t →
    SameOutcome (core.run k s) (core.run k t)

/-- A system of instances: a step of one leaves every other as it was (R215). -/
def Obligations.InstancesShareNothing : Prop :=
  ∀ (sys sys' : List State) (k : Nat), systemStep k sys = some (.next sys') →
    sys'.length = sys.length ∧ (∀ j, j ≠ k → sys'[j]? = sys[j]?) ∧
    ∃ s t, sys[k]? = some s ∧ step s = .next t ∧ sys'[k]? = some t

/-- An instance is built from a parameter set exactly when its capacity is between 1 and 2^31, its
coefficients are finite and `|A1| < 1`; it starts in the reset state (R6, R243). -/
def Obligations.OnlyValidParametersBuildAnInstance : Prop :=
  ∀ p : Params,
    ((1 ≤ p.maxDelay ∧ p.maxDelay ≤ 2 ^ 31 ∧ isFinite p.b0 = true ∧ isFinite p.b1 = true ∧
      isFinite p.a1 = true ∧ (signedUnits p.a1).natAbs < scale) → build p = some (State.resetWith p)) ∧
    (¬ (1 ≤ p.maxDelay ∧ p.maxDelay ≤ 2 ^ 31 ∧ isFinite p.b0 = true ∧ isFinite p.b1 = true ∧
      isFinite p.a1 = true ∧ (signedUnits p.a1).natAbs < scale) → build p = none)

/-! ### Runs of packets -/

/-- The machine performing the packets a host sends is the packets served one after another (R4, R60). -/
def Obligations.RunOfSentPacketsIsTheirMeanings : Prop :=
  ∀ (ps : List Packet) (s : State), core.run ps.length (sendPackets ps s) = runPackets ps s

/-- Let packets of one run be performed after a successful INIT_RUN, `n` of them PROCESS_SAMPLE and the others
failing commands and illegal packets: then `LO_IDX = n mod PERIOD` and `DLY_IDX = n mod DELAY`, and every sample was
performed (R38). -/
def Obligations.IndicesCountTheSamples : Prop :=
  ∀ (u s : State) (r : Response) (ratio : Int) (fc mas fsens : F64) (ps : List Packet),
    StateInv u → inI32 ratio = true → exec (.initRun ratio fc mas fsens) u = .next s →
    s.responses = u.responses ++ [r] → r.status = 0x00000200#32 → staysInRun ps s = true →
    ∃ t, core.run ps.length (sendPackets ps s) = .next t ∧ t.block.state = .running ∧
      t.block.loIdx = ps.countP isSample % s.block.period ∧
      t.block.dlyIdx = ps.countP isSample % s.block.delay

/-- The pair the delay line gives sample `n` of a run is the pair of filter outputs of sample `n - DELAY`,
and `(+0.0, +0.0)` for `n < DELAY` (R142), with failing commands and illegal packets between the samples or none.
In the first part sample `n - DELAY` is the packet `p`, and sample `n` is the first one after `qs`, in which there
are `DELAY - 1` samples; in the second `n` is the number of samples in `ps`. -/
def Obligations.DelayedPairHasAgeDelay : Prop :=
  ∀ (u s : State) (r : Response) (ratio : Int) (fc mas fsens : F64),
    StateInv u → inI32 ratio = true → exec (.initRun ratio fc mas fsens) u = .next s →
    s.responses = u.responses ++ [r] → r.status = 0x00000200#32 →
    (∀ (ps qs : List Packet) (p : Packet), isSample p = true → qs.countP isSample + 1 = s.block.delay →
      staysInRun (ps ++ p :: qs) s = true →
      ∃ t v, runPackets (ps ++ [p]) s = .next t ∧ runPackets (ps ++ p :: qs) s = .next v ∧
        dlRead v.block v.block.dlyIdx = (t.block.fI.bufOut, t.block.fQ.bufOut)) ∧
    (∀ ps : List Packet, ps.countP isSample < s.block.delay → staysInRun ps s = true →
      ∃ t, runPackets ps s = .next t ∧ dlRead t.block t.block.dlyIdx = (posZero, posZero))

/-- With the default primitives the first `DELAY` outputs of a run are zeros, and `+0.0` exactly if `A1 < 0`, as
long as the I and Q filters give finite values (R175). Failing commands and illegal packets may stand between the
samples. -/
def Obligations.FirstDelayOutputsAreZero : Prop :=
  ∀ (u s : State) (r : Response) (ratio : Int) (fc mas fsens : F64) (ps : List Packet),
    StateInv u → u.params.primitives = .binary64 → inI32 ratio = true →
    exec (.initRun ratio fc mas fsens) u = .next s →
    s.responses = u.responses ++ [r] → r.status = 0x00000200#32 →
    staysInRun ps s = true → ps.countP isSample ≤ s.block.delay →
    (∀ (ys zs : List Packet) (v : State), ys ++ zs = ps → runPackets ys s = .next v →
      isFinite v.block.fI.bufOut = true ∧ isFinite v.block.fQ.bufOut = true) →
    ∃ (t : State) (outs : List Response), runPackets ps s = .next t ∧ t.responses = s.responses ++ outs ∧
      outs.length = ps.length ∧
      (∀ c ∈ ps.zip outs, isSample c.1 = true →
        c.2.status = 0x00000200#32 ∧ isZero c.2.res0 = true ∧ c.2.res1 = 0#64) ∧
      (fgt posZero s.params.a1 = true → ∀ c ∈ ps.zip outs, isSample c.1 = true → c.2.res0 = posZero)

/-! ### The internal operations -/

/-- Mixing is the product with the two tables' entries in the instance's primitives, and with the default ones it
is exact: a sample that is not a NaN becomes itself or its negation, by the tables of R100 and R101, the sign of
zero included, and a NaN becomes some NaN (R104). -/
def Obligations.MixerIsExact : Prop :=
  ∀ (p : Params) (n : Nat) (x : F64) (b : Block) (k : Nat),
    mix p n x b k =
      (fmul (arithOf p) n x (if k < b.period / 2 then posOne else negOne),
       fmul (arithOf p) (n + 1) x (if k < b.quarter ∨ k ≥ 3 * b.quarter then posOne else negOne)) ∧
    (p.primitives = .binary64 → isNaN x = false →
      mix p n x b k =
        (if k < b.period / 2 then x else fneg x,
         if k < b.quarter ∨ k ≥ 3 * b.quarter then x else fneg x)) ∧
    (p.primitives = .binary64 → isNaN x = true →
      isNaN (mix p n x b k).1 = true ∧ isNaN (mix p n x b k).2 = true)

/-- The tables of every legal period: half a period of `+1` then half of `-1`; a quarter of `+1`, a half of
`-1`, a quarter of `+1`; as many `+1` as `-1` in each, so that each sums to zero; and the cosine table is the
sine table a quarter of a period on (R100, R101, R102). -/
def Obligations.LoTablesHaveTheirShape : Prop :=
  ∀ q : Nat, 1 ≤ q →
    (∀ k < 4 * q,
      (k < 2 * q → loSine (4 * q) k = posOne) ∧ (2 * q ≤ k → loSine (4 * q) k = negOne) ∧
      (k < q → loCos q k = posOne) ∧ (q ≤ k → k < 3 * q → loCos q k = negOne) ∧
      (3 * q ≤ k → loCos q k = posOne) ∧
      loCos q k = loSine (4 * q) ((k + q) % (4 * q))) ∧
    (List.range (4 * q)).countP (fun k => loSine (4 * q) k = posOne) = 2 * q ∧
    (List.range (4 * q)).countP (fun k => loSine (4 * q) k = negOne) = 2 * q ∧
    (List.range (4 * q)).countP (fun k => loCos q k = posOne) = 2 * q ∧
    (List.range (4 * q)).countP (fun k => loCos q k = negOne) = 2 * q

/-- From the zero state an input of all `+0.0` keeps a filter in the zero state forever, for valid
coefficients with `B0` and `B1` not negative, the default among them, and the default primitives (R124, R120). -/
def Obligations.ZeroInputKeepsTheZeroFilter : Prop :=
  ∀ (p : Params) (n k : Nat), validParams p = true → p.primitives = .binary64 →
    signBit p.b0 = false → signBit p.b1 = false →
    (fun f => iirProcess p n f posZero)^[k] Filter.zero = Filter.zero

/-- R124 as it is worded, for any valid coefficients and the default primitives. By R8 and R120 it should fail:
with `B0` and `B1` negative and `A1` positive, a `-0.0` comes out. -/
def Obligations.ZeroInputGivesZeroForAnyCoefficients : Prop :=
  ∀ (p : Params) (n k : Nat), validParams p = true → p.primitives = .binary64 →
    ((fun f => iirProcess p n f posZero)^[k] Filter.zero).bufOut = posZero

/-- Equal current and delayed pairs discriminate to `+0.0` exactly, as long as the product does not
overflow, with the default primitives (R145). -/
def Obligations.EqualPairsDiscriminateToZero : Prop :=
  ∀ (p : Params) (n : Nat) (i q : F64), p.primitives = .binary64 → isFinite i = true → isFinite q = true →
    isFinite (fmul ieeeArith n i q) = true → discriminate p n i q i q = posZero

/-- The corner case of R145 as it is worded, for all finite pairs, with the default primitives. By R8 it should
fail: where the product overflows, the difference of two infinities is a NaN. -/
def Obligations.EqualFinitePairsAlwaysDiscriminateToZero : Prop :=
  ∀ (p : Params) (n : Nat) (i q : F64), p.primitives = .binary64 → isFinite i = true → isFinite q = true →
    discriminate p n i q i q = posZero

/-! ### Arithmetic -/

/-- The default primitives on finite values are the exact result rounded once, with the sign of the exact result
(R8); `roundMag` is the rounding that `RoundingIsToNearestEven` is about. An exact zero sum is `+0.0`, but for the
sum of two negative zeros, and a difference is the sum with the negated value. A finite value that is not zero over
a zero is an infinity, and a zero over a zero is some NaN. -/
def Obligations.PrimitivesRoundTheExactResult : Prop :=
  ∀ (n : Nat) (a b : F64), isFinite a = true → isFinite b = true →
    let A := ieeeArith
    let sum := signedUnits a + signedUnits b
    let diff := signedUnits a - signedUnits b
    fadd A n a b =
      (if sum ≠ 0 then pack (decide (sum < 0)) (roundMag sum.natAbs 1)
       else if signBit a = true ∧ signBit b = true then fneg posZero else posZero) ∧
    fsub A n a b =
      (if diff ≠ 0 then pack (decide (diff < 0)) (roundMag diff.natAbs 1)
       else if signBit a = true ∧ signBit b = false then fneg posZero else posZero) ∧
    fmul A n a b
      = pack (signBit a ^^ signBit b) (roundMag ((signedUnits a).natAbs * (signedUnits b).natAbs) scale) ∧
    (isZero b = false →
      fdiv A n a b
        = pack (signBit a ^^ signBit b) (roundMag ((signedUnits a).natAbs * scale) (signedUnits b).natAbs)) ∧
    (isZero a = false → isZero b = true → fdiv A n a b = pack (signBit a ^^ signBit b) infMag) ∧
    (isZero a = true → isZero b = true → isNaN (fdiv A n a b) = true)

/-- The default primitives on infinities and NaNs (R8; the rules themselves are those of IEEE 754, assumption 15). A
NaN operand gives some NaN. An infinity and a finite value add to that infinity, and so do equal infinities;
opposite ones give some NaN. An infinity times a zero is some NaN, and times anything else an infinity with the
product of the signs. An infinity over a finite value is an infinity, a finite value over an infinity a zero, and an
infinity over an infinity some NaN. -/
def Obligations.PrimitivesOnInfinitiesAndNaNs : Prop :=
  ∀ (n : Nat) (a b : F64),
    let A := ieeeArith
    (isNaN a = true ∨ isNaN b = true →
      isNaN (fadd A n a b) = true ∧ isNaN (fsub A n a b) = true ∧ isNaN (fmul A n a b) = true ∧
      isNaN (fdiv A n a b) = true) ∧
    (isInf a = true → isFinite b = true →
      fadd A n a b = a ∧ fsub A n a b = a ∧ fdiv A n a b = pack (signBit a ^^ signBit b) infMag) ∧
    (isFinite a = true → isInf b = true →
      fadd A n a b = b ∧ fsub A n a b = fneg b ∧ fdiv A n a b = pack (signBit a ^^ signBit b) 0) ∧
    (isInf a = true → isInf b = true →
      (signBit a = signBit b → fadd A n a b = a ∧ isNaN (fsub A n a b) = true) ∧
      (signBit a ≠ signBit b → isNaN (fadd A n a b) = true ∧ fsub A n a b = a) ∧
      isNaN (fdiv A n a b) = true) ∧
    (isInf a = true ∧ isZero b = true ∨ isZero a = true ∧ isInf b = true → isNaN (fmul A n a b) = true) ∧
    (isInf a = true ∧ isNaN b = false ∧ isZero b = false ∨
      isNaN a = false ∧ isZero a = false ∧ isInf b = true →
      fmul A n a b = pack (signBit a ^^ signBit b) infMag)

/-- Rounding is to the nearest finite magnitude, the even one at a tie, and overflows to infinity exactly
from half a unit in the last place above the greatest finite value on (R8). -/
def Obligations.RoundingIsToNearestEven : Prop :=
  ∀ n d : Nat, 0 < d →
    (roundMag n d < infMag → NearestEven n d (roundMag n d)) ∧
    (roundMag n d = infMag ↔ d * ((2 ^ 54 - 1) * 2 ^ 2044) ≤ n)

/-- The comparisons are numeric: on finite values by size, both zeros equal; an infinity against every finite
value and against each other by sign; and no comparison with a NaN holds. An exponent field of all ones is what
infinities and NaNs have, and a NaN's fraction is not zero (R7, R15). -/
def Obligations.ComparisonsAreNumeric : Prop :=
  (∀ a b : F64, isFinite a = true → isFinite b = true →
    (feq a b = true ↔ signedUnits a = signedUnits b) ∧ (fgt a b = true ↔ signedUnits b < signedUnits a)) ∧
  (∀ a : F64, isFinite a = true →
    fgt posInf a = true ∧ fgt a (fneg posInf) = true ∧ fgt a posInf = false ∧ fgt (fneg posInf) a = false ∧
    feq a posInf = false ∧ feq a (fneg posInf) = false) ∧
  (∀ a b : F64, isNaN a = true ∨ isNaN b = true → feq a b = false ∧ fgt a b = false) ∧
  feq posInf posInf = true ∧ feq (fneg posInf) (fneg posInf) = true ∧ feq posInf (fneg posInf) = false ∧
  fgt posInf (fneg posInf) = true ∧ fgt (fneg posInf) posInf = false ∧ fgt posInf posInf = false ∧
  fgt (fneg posInf) (fneg posInf) = false ∧
  (∀ a : F64, (isFinite a = true ↔ a.extractLsb' 52 11 ≠ 0x7ff#11) ∧
    (isNaN a = true ↔ a.extractLsb' 52 11 = 0x7ff#11 ∧ a.extractLsb' 0 52 ≠ 0#52))

/-- `roundHalfEven(q)` is the integer nearest to a finite `q`, the even one half way between two; and the
examples 2.5, 7.5, 12.5 and 44.94… (R13). -/
def Obligations.RoundHalfEvenIsNearest : Prop :=
  (∀ q : F64, isFinite q = true →
    let err := signedUnits q - roundHalfEven q * (scale : Int)
    2 * err.natAbs ≤ scale ∧ (2 * err.natAbs = scale → roundHalfEven q % 2 = 0)) ∧
  roundHalfEven 0x4004000000000000 = 2 ∧ roundHalfEven 0x401e000000000000 = 8 ∧
  roundHalfEven 0x4029000000000000 = 12 ∧ roundHalfEven 0x404678cf19e33c68 = 45

/-- `f64_of_int(n)` is exact for `|n| ≤ 2^53`, and every integer the block converts is within that bound: an
integer operand, or a delay of at most a valid capacity (R14). -/
def Obligations.SmallIntegersConvertExactly : Prop :=
  (∀ n : Int, n.natAbs ≤ 2 ^ 53 →
    isFinite (f64OfInt n) = true ∧ signedUnits (f64OfInt n) = n * (scale : Int)) ∧
  (∀ w : Word64, (i32 w).natAbs ≤ 2 ^ 53) ∧
  (∀ (p : Params) (d : Nat), validParams p = true → d ≤ p.maxDelay → d ≤ 2 ^ 53)

/-- For finite values, `feq(a, b)` holds exactly when `fsub(a, b)` of the default primitives is a zero (R166). -/
def Obligations.DifferenceIsZeroExactlyWhenEqual : Prop :=
  ∀ (n : Nat) (a b : F64), isFinite a = true → isFinite b = true →
    (feq a b = true ↔ isZero (fsub ieeeArith n a b) = true)
end

