-- ==== Sys2Proof/Laws/State.lean ====
section
/-! SUPPORT. Each field of the block and of the state after each named update: true by unfolding, and in the
simp set, so that no later proof unfolds an update. -/

namespace Sys2Proof.Machine

/-! ### `loAdvance` -/

@[simp] theorem loAdvance_state (b : Block) : (loAdvance b).state = b.state := rfl
@[simp] theorem loAdvance_fs (b : Block) : (loAdvance b).fs = b.fs := rfl
@[simp] theorem loAdvance_osr (b : Block) : (loAdvance b).osr = b.osr := rfl
@[simp] theorem loAdvance_flo (b : Block) : (loAdvance b).flo = b.flo := rfl
@[simp] theorem loAdvance_period (b : Block) : (loAdvance b).period = b.period := rfl
@[simp] theorem loAdvance_quarter (b : Block) : (loAdvance b).quarter = b.quarter := rfl
@[simp] theorem loAdvance_dratio (b : Block) : (loAdvance b).dratio = b.dratio := rfl
@[simp] theorem loAdvance_fc (b : Block) : (loAdvance b).fc = b.fc := rfl
@[simp] theorem loAdvance_mas (b : Block) : (loAdvance b).mas = b.mas := rfl
@[simp] theorem loAdvance_fsens (b : Block) : (loAdvance b).fsens = b.fsens := rfl
@[simp] theorem loAdvance_delay (b : Block) : (loAdvance b).delay = b.delay := rfl
@[simp] theorem loAdvance_phasedev (b : Block) : (loAdvance b).phasedev = b.phasedev := rfl
@[simp] theorem loAdvance_loIdx (b : Block) : (loAdvance b).loIdx = (b.loIdx + 1) % b.period := rfl
@[simp] theorem loAdvance_dlyIdx (b : Block) : (loAdvance b).dlyIdx = b.dlyIdx := rfl
@[simp] theorem loAdvance_iBuf (b : Block) : (loAdvance b).iBuf = b.iBuf := rfl
@[simp] theorem loAdvance_qBuf (b : Block) : (loAdvance b).qBuf = b.qBuf := rfl
@[simp] theorem loAdvance_fI (b : Block) : (loAdvance b).fI = b.fI := rfl
@[simp] theorem loAdvance_fQ (b : Block) : (loAdvance b).fQ = b.fQ := rfl
@[simp] theorem loAdvance_fOut (b : Block) : (loAdvance b).fOut = b.fOut := rfl

/-! ### `iirResetAll` -/

@[simp] theorem iirResetAll_state (b : Block) : (iirResetAll b).state = b.state := rfl
@[simp] theorem iirResetAll_fs (b : Block) : (iirResetAll b).fs = b.fs := rfl
@[simp] theorem iirResetAll_osr (b : Block) : (iirResetAll b).osr = b.osr := rfl
@[simp] theorem iirResetAll_flo (b : Block) : (iirResetAll b).flo = b.flo := rfl
@[simp] theorem iirResetAll_period (b : Block) : (iirResetAll b).period = b.period := rfl
@[simp] theorem iirResetAll_quarter (b : Block) : (iirResetAll b).quarter = b.quarter := rfl
@[simp] theorem iirResetAll_dratio (b : Block) : (iirResetAll b).dratio = b.dratio := rfl
@[simp] theorem iirResetAll_fc (b : Block) : (iirResetAll b).fc = b.fc := rfl
@[simp] theorem iirResetAll_mas (b : Block) : (iirResetAll b).mas = b.mas := rfl
@[simp] theorem iirResetAll_fsens (b : Block) : (iirResetAll b).fsens = b.fsens := rfl
@[simp] theorem iirResetAll_delay (b : Block) : (iirResetAll b).delay = b.delay := rfl
@[simp] theorem iirResetAll_phasedev (b : Block) : (iirResetAll b).phasedev = b.phasedev := rfl
@[simp] theorem iirResetAll_loIdx (b : Block) : (iirResetAll b).loIdx = b.loIdx := rfl
@[simp] theorem iirResetAll_dlyIdx (b : Block) : (iirResetAll b).dlyIdx = b.dlyIdx := rfl
@[simp] theorem iirResetAll_iBuf (b : Block) : (iirResetAll b).iBuf = b.iBuf := rfl
@[simp] theorem iirResetAll_qBuf (b : Block) : (iirResetAll b).qBuf = b.qBuf := rfl
@[simp] theorem iirResetAll_fI (b : Block) : (iirResetAll b).fI = Filter.zero := rfl
@[simp] theorem iirResetAll_fQ (b : Block) : (iirResetAll b).fQ = Filter.zero := rfl
@[simp] theorem iirResetAll_fOut (b : Block) : (iirResetAll b).fOut = Filter.zero := rfl

/-! ### `dlWrite` -/

@[simp] theorem dlWrite_state (b : Block) (k : Nat) (i q : F64) : (dlWrite b k i q).state = b.state := rfl
@[simp] theorem dlWrite_fs (b : Block) (k : Nat) (i q : F64) : (dlWrite b k i q).fs = b.fs := rfl
@[simp] theorem dlWrite_osr (b : Block) (k : Nat) (i q : F64) : (dlWrite b k i q).osr = b.osr := rfl
@[simp] theorem dlWrite_flo (b : Block) (k : Nat) (i q : F64) : (dlWrite b k i q).flo = b.flo := rfl
@[simp] theorem dlWrite_period (b : Block) (k : Nat) (i q : F64) : (dlWrite b k i q).period = b.period := rfl
@[simp] theorem dlWrite_quarter (b : Block) (k : Nat) (i q : F64) : (dlWrite b k i q).quarter = b.quarter := rfl
@[simp] theorem dlWrite_dratio (b : Block) (k : Nat) (i q : F64) : (dlWrite b k i q).dratio = b.dratio := rfl
@[simp] theorem dlWrite_fc (b : Block) (k : Nat) (i q : F64) : (dlWrite b k i q).fc = b.fc := rfl
@[simp] theorem dlWrite_mas (b : Block) (k : Nat) (i q : F64) : (dlWrite b k i q).mas = b.mas := rfl
@[simp] theorem dlWrite_fsens (b : Block) (k : Nat) (i q : F64) : (dlWrite b k i q).fsens = b.fsens := rfl
@[simp] theorem dlWrite_delay (b : Block) (k : Nat) (i q : F64) : (dlWrite b k i q).delay = b.delay := rfl
@[simp] theorem dlWrite_phasedev (b : Block) (k : Nat) (i q : F64) : (dlWrite b k i q).phasedev = b.phasedev := rfl
@[simp] theorem dlWrite_loIdx (b : Block) (k : Nat) (i q : F64) : (dlWrite b k i q).loIdx = b.loIdx := rfl
@[simp] theorem dlWrite_dlyIdx (b : Block) (k : Nat) (i q : F64) : (dlWrite b k i q).dlyIdx = b.dlyIdx := rfl
@[simp] theorem dlWrite_iBuf (b : Block) (k : Nat) (i q : F64) : (dlWrite b k i q).iBuf = b.iBuf.write k i := rfl
@[simp] theorem dlWrite_qBuf (b : Block) (k : Nat) (i q : F64) : (dlWrite b k i q).qBuf = b.qBuf.write k q := rfl
@[simp] theorem dlWrite_fI (b : Block) (k : Nat) (i q : F64) : (dlWrite b k i q).fI = b.fI := rfl
@[simp] theorem dlWrite_fQ (b : Block) (k : Nat) (i q : F64) : (dlWrite b k i q).fQ = b.fQ := rfl
@[simp] theorem dlWrite_fOut (b : Block) (k : Nat) (i q : F64) : (dlWrite b k i q).fOut = b.fOut := rfl

/-! ### `dlAdvance` -/

@[simp] theorem dlAdvance_state (b : Block) : (dlAdvance b).state = b.state := rfl
@[simp] theorem dlAdvance_fs (b : Block) : (dlAdvance b).fs = b.fs := rfl
@[simp] theorem dlAdvance_osr (b : Block) : (dlAdvance b).osr = b.osr := rfl
@[simp] theorem dlAdvance_flo (b : Block) : (dlAdvance b).flo = b.flo := rfl
@[simp] theorem dlAdvance_period (b : Block) : (dlAdvance b).period = b.period := rfl
@[simp] theorem dlAdvance_quarter (b : Block) : (dlAdvance b).quarter = b.quarter := rfl
@[simp] theorem dlAdvance_dratio (b : Block) : (dlAdvance b).dratio = b.dratio := rfl
@[simp] theorem dlAdvance_fc (b : Block) : (dlAdvance b).fc = b.fc := rfl
@[simp] theorem dlAdvance_mas (b : Block) : (dlAdvance b).mas = b.mas := rfl
@[simp] theorem dlAdvance_fsens (b : Block) : (dlAdvance b).fsens = b.fsens := rfl
@[simp] theorem dlAdvance_delay (b : Block) : (dlAdvance b).delay = b.delay := rfl
@[simp] theorem dlAdvance_phasedev (b : Block) : (dlAdvance b).phasedev = b.phasedev := rfl
@[simp] theorem dlAdvance_loIdx (b : Block) : (dlAdvance b).loIdx = b.loIdx := rfl
@[simp] theorem dlAdvance_dlyIdx (b : Block) : (dlAdvance b).dlyIdx = (b.dlyIdx + 1) % b.delay := rfl
@[simp] theorem dlAdvance_iBuf (b : Block) : (dlAdvance b).iBuf = b.iBuf := rfl
@[simp] theorem dlAdvance_qBuf (b : Block) : (dlAdvance b).qBuf = b.qBuf := rfl
@[simp] theorem dlAdvance_fI (b : Block) : (dlAdvance b).fI = b.fI := rfl
@[simp] theorem dlAdvance_fQ (b : Block) : (dlAdvance b).fQ = b.fQ := rfl
@[simp] theorem dlAdvance_fOut (b : Block) : (dlAdvance b).fOut = b.fOut := rfl

/-! ### `dlPush` -/

@[simp] theorem dlPush_state (b : Block) (i q : F64) : (dlPush b i q).state = b.state := rfl
@[simp] theorem dlPush_fs (b : Block) (i q : F64) : (dlPush b i q).fs = b.fs := rfl
@[simp] theorem dlPush_osr (b : Block) (i q : F64) : (dlPush b i q).osr = b.osr := rfl
@[simp] theorem dlPush_flo (b : Block) (i q : F64) : (dlPush b i q).flo = b.flo := rfl
@[simp] theorem dlPush_period (b : Block) (i q : F64) : (dlPush b i q).period = b.period := rfl
@[simp] theorem dlPush_quarter (b : Block) (i q : F64) : (dlPush b i q).quarter = b.quarter := rfl
@[simp] theorem dlPush_dratio (b : Block) (i q : F64) : (dlPush b i q).dratio = b.dratio := rfl
@[simp] theorem dlPush_fc (b : Block) (i q : F64) : (dlPush b i q).fc = b.fc := rfl
@[simp] theorem dlPush_mas (b : Block) (i q : F64) : (dlPush b i q).mas = b.mas := rfl
@[simp] theorem dlPush_fsens (b : Block) (i q : F64) : (dlPush b i q).fsens = b.fsens := rfl
@[simp] theorem dlPush_delay (b : Block) (i q : F64) : (dlPush b i q).delay = b.delay := rfl
@[simp] theorem dlPush_phasedev (b : Block) (i q : F64) : (dlPush b i q).phasedev = b.phasedev := rfl
@[simp] theorem dlPush_loIdx (b : Block) (i q : F64) : (dlPush b i q).loIdx = b.loIdx := rfl
@[simp] theorem dlPush_dlyIdx (b : Block) (i q : F64) : (dlPush b i q).dlyIdx = (b.dlyIdx + 1) % b.delay := rfl
@[simp] theorem dlPush_iBuf (b : Block) (i q : F64) : (dlPush b i q).iBuf = b.iBuf.write b.dlyIdx i := rfl
@[simp] theorem dlPush_qBuf (b : Block) (i q : F64) : (dlPush b i q).qBuf = b.qBuf.write b.dlyIdx q := rfl
@[simp] theorem dlPush_fI (b : Block) (i q : F64) : (dlPush b i q).fI = b.fI := rfl
@[simp] theorem dlPush_fQ (b : Block) (i q : F64) : (dlPush b i q).fQ = b.fQ := rfl
@[simp] theorem dlPush_fOut (b : Block) (i q : F64) : (dlPush b i q).fOut = b.fOut := rfl

/-! ### `dlReset` -/

@[simp] theorem dlReset_state (d : Nat) (b : Block) : (dlReset d b).state = b.state := rfl
@[simp] theorem dlReset_fs (d : Nat) (b : Block) : (dlReset d b).fs = b.fs := rfl
@[simp] theorem dlReset_osr (d : Nat) (b : Block) : (dlReset d b).osr = b.osr := rfl
@[simp] theorem dlReset_flo (d : Nat) (b : Block) : (dlReset d b).flo = b.flo := rfl
@[simp] theorem dlReset_period (d : Nat) (b : Block) : (dlReset d b).period = b.period := rfl
@[simp] theorem dlReset_quarter (d : Nat) (b : Block) : (dlReset d b).quarter = b.quarter := rfl
@[simp] theorem dlReset_dratio (d : Nat) (b : Block) : (dlReset d b).dratio = b.dratio := rfl
@[simp] theorem dlReset_fc (d : Nat) (b : Block) : (dlReset d b).fc = b.fc := rfl
@[simp] theorem dlReset_mas (d : Nat) (b : Block) : (dlReset d b).mas = b.mas := rfl
@[simp] theorem dlReset_fsens (d : Nat) (b : Block) : (dlReset d b).fsens = b.fsens := rfl
@[simp] theorem dlReset_delay (d : Nat) (b : Block) : (dlReset d b).delay = d := rfl
@[simp] theorem dlReset_phasedev (d : Nat) (b : Block) : (dlReset d b).phasedev = b.phasedev := rfl
@[simp] theorem dlReset_loIdx (d : Nat) (b : Block) : (dlReset d b).loIdx = b.loIdx := rfl
@[simp] theorem dlReset_dlyIdx (d : Nat) (b : Block) : (dlReset d b).dlyIdx = 0 := rfl
@[simp] theorem dlReset_iBuf (d : Nat) (b : Block) : (dlReset d b).iBuf = Memory.clear := rfl
@[simp] theorem dlReset_qBuf (d : Nat) (b : Block) : (dlReset d b).qBuf = Memory.clear := rfl
@[simp] theorem dlReset_fI (d : Nat) (b : Block) : (dlReset d b).fI = b.fI := rfl
@[simp] theorem dlReset_fQ (d : Nat) (b : Block) : (dlReset d b).fQ = b.fQ := rfl
@[simp] theorem dlReset_fOut (d : Nat) (b : Block) : (dlReset d b).fOut = b.fOut := rfl

/-! ### `configureBlock` -/

@[simp] theorem configureBlock_state (p : Params) (n : Nat) (fs : F64) (osr : Int) (b : Block) :
    (configureBlock p n fs osr b).state = .configured := rfl
@[simp] theorem configureBlock_fs (p : Params) (n : Nat) (fs : F64) (osr : Int) (b : Block) :
    (configureBlock p n fs osr b).fs = fs := rfl
@[simp] theorem configureBlock_osr (p : Params) (n : Nat) (fs : F64) (osr : Int) (b : Block) :
    (configureBlock p n fs osr b).osr = osr := rfl
@[simp] theorem configureBlock_flo (p : Params) (n : Nat) (fs : F64) (osr : Int) (b : Block) :
    (configureBlock p n fs osr b).flo = configureFlo p n fs osr := rfl
@[simp] theorem configureBlock_period (p : Params) (n : Nat) (fs : F64) (osr : Int) (b : Block) :
    (configureBlock p n fs osr b).period = osr.toNat := rfl
@[simp] theorem configureBlock_quarter (p : Params) (n : Nat) (fs : F64) (osr : Int) (b : Block) :
    (configureBlock p n fs osr b).quarter = (osr / 4).toNat := rfl
@[simp] theorem configureBlock_dratio (p : Params) (n : Nat) (fs : F64) (osr : Int) (b : Block) :
    (configureBlock p n fs osr b).dratio = 0 := rfl
@[simp] theorem configureBlock_fc (p : Params) (n : Nat) (fs : F64) (osr : Int) (b : Block) :
    (configureBlock p n fs osr b).fc = posZero := rfl
@[simp] theorem configureBlock_mas (p : Params) (n : Nat) (fs : F64) (osr : Int) (b : Block) :
    (configureBlock p n fs osr b).mas = posZero := rfl
@[simp] theorem configureBlock_fsens (p : Params) (n : Nat) (fs : F64) (osr : Int) (b : Block) :
    (configureBlock p n fs osr b).fsens = posZero := rfl
@[simp] theorem configureBlock_delay (p : Params) (n : Nat) (fs : F64) (osr : Int) (b : Block) :
    (configureBlock p n fs osr b).delay = 0 := rfl
@[simp] theorem configureBlock_phasedev (p : Params) (n : Nat) (fs : F64) (osr : Int) (b : Block) :
    (configureBlock p n fs osr b).phasedev = posZero := rfl
@[simp] theorem configureBlock_loIdx (p : Params) (n : Nat) (fs : F64) (osr : Int) (b : Block) :
    (configureBlock p n fs osr b).loIdx = 0 := rfl
@[simp] theorem configureBlock_dlyIdx (p : Params) (n : Nat) (fs : F64) (osr : Int) (b : Block) :
    (configureBlock p n fs osr b).dlyIdx = 0 := rfl
@[simp] theorem configureBlock_iBuf (p : Params) (n : Nat) (fs : F64) (osr : Int) (b : Block) :
    (configureBlock p n fs osr b).iBuf = Memory.clear := rfl
@[simp] theorem configureBlock_qBuf (p : Params) (n : Nat) (fs : F64) (osr : Int) (b : Block) :
    (configureBlock p n fs osr b).qBuf = Memory.clear := rfl
@[simp] theorem configureBlock_fI (p : Params) (n : Nat) (fs : F64) (osr : Int) (b : Block) :
    (configureBlock p n fs osr b).fI = Filter.zero := rfl
@[simp] theorem configureBlock_fQ (p : Params) (n : Nat) (fs : F64) (osr : Int) (b : Block) :
    (configureBlock p n fs osr b).fQ = Filter.zero := rfl
@[simp] theorem configureBlock_fOut (p : Params) (n : Nat) (fs : F64) (osr : Int) (b : Block) :
    (configureBlock p n fs osr b).fOut = Filter.zero := rfl

/-! ### `initRunBlock` -/

@[simp] theorem initRunBlock_state (d : Nat) (pd : F64) (ratio : Int) (fc mas fsens : F64) (b : Block) :
    (initRunBlock d pd ratio fc mas fsens b).state = .running := rfl
@[simp] theorem initRunBlock_fs (d : Nat) (pd : F64) (ratio : Int) (fc mas fsens : F64) (b : Block) :
    (initRunBlock d pd ratio fc mas fsens b).fs = b.fs := rfl
@[simp] theorem initRunBlock_osr (d : Nat) (pd : F64) (ratio : Int) (fc mas fsens : F64) (b : Block) :
    (initRunBlock d pd ratio fc mas fsens b).osr = b.osr := rfl
@[simp] theorem initRunBlock_flo (d : Nat) (pd : F64) (ratio : Int) (fc mas fsens : F64) (b : Block) :
    (initRunBlock d pd ratio fc mas fsens b).flo = b.flo := rfl
@[simp] theorem initRunBlock_period (d : Nat) (pd : F64) (ratio : Int) (fc mas fsens : F64) (b : Block) :
    (initRunBlock d pd ratio fc mas fsens b).period = b.period := rfl
@[simp] theorem initRunBlock_quarter (d : Nat) (pd : F64) (ratio : Int) (fc mas fsens : F64) (b : Block) :
    (initRunBlock d pd ratio fc mas fsens b).quarter = b.quarter := rfl
@[simp] theorem initRunBlock_dratio (d : Nat) (pd : F64) (ratio : Int) (fc mas fsens : F64) (b : Block) :
    (initRunBlock d pd ratio fc mas fsens b).dratio = ratio := rfl
@[simp] theorem initRunBlock_fc (d : Nat) (pd : F64) (ratio : Int) (fc mas fsens : F64) (b : Block) :
    (initRunBlock d pd ratio fc mas fsens b).fc = fc := rfl
@[simp] theorem initRunBlock_mas (d : Nat) (pd : F64) (ratio : Int) (fc mas fsens : F64) (b : Block) :
    (initRunBlock d pd ratio fc mas fsens b).mas = mas := rfl
@[simp] theorem initRunBlock_fsens (d : Nat) (pd : F64) (ratio : Int) (fc mas fsens : F64) (b : Block) :
    (initRunBlock d pd ratio fc mas fsens b).fsens = fsens := rfl
@[simp] theorem initRunBlock_delay (d : Nat) (pd : F64) (ratio : Int) (fc mas fsens : F64) (b : Block) :
    (initRunBlock d pd ratio fc mas fsens b).delay = d := rfl
@[simp] theorem initRunBlock_phasedev (d : Nat) (pd : F64) (ratio : Int) (fc mas fsens : F64) (b : Block) :
    (initRunBlock d pd ratio fc mas fsens b).phasedev = pd := rfl
@[simp] theorem initRunBlock_loIdx (d : Nat) (pd : F64) (ratio : Int) (fc mas fsens : F64) (b : Block) :
    (initRunBlock d pd ratio fc mas fsens b).loIdx = 0 := rfl
@[simp] theorem initRunBlock_dlyIdx (d : Nat) (pd : F64) (ratio : Int) (fc mas fsens : F64) (b : Block) :
    (initRunBlock d pd ratio fc mas fsens b).dlyIdx = 0 := rfl
@[simp] theorem initRunBlock_iBuf (d : Nat) (pd : F64) (ratio : Int) (fc mas fsens : F64) (b : Block) :
    (initRunBlock d pd ratio fc mas fsens b).iBuf = Memory.clear := rfl
@[simp] theorem initRunBlock_qBuf (d : Nat) (pd : F64) (ratio : Int) (fc mas fsens : F64) (b : Block) :
    (initRunBlock d pd ratio fc mas fsens b).qBuf = Memory.clear := rfl
@[simp] theorem initRunBlock_fI (d : Nat) (pd : F64) (ratio : Int) (fc mas fsens : F64) (b : Block) :
    (initRunBlock d pd ratio fc mas fsens b).fI = Filter.zero := rfl
@[simp] theorem initRunBlock_fQ (d : Nat) (pd : F64) (ratio : Int) (fc mas fsens : F64) (b : Block) :
    (initRunBlock d pd ratio fc mas fsens b).fQ = Filter.zero := rfl
@[simp] theorem initRunBlock_fOut (d : Nat) (pd : F64) (ratio : Int) (fc mas fsens : F64) (b : Block) :
    (initRunBlock d pd ratio fc mas fsens b).fOut = Filter.zero := rfl

/-! ### `samplePipeline` -/

@[simp] theorem samplePipeline_state (p : Params) (n : Nat) (x : F64) (b : Block) :
    (samplePipeline p n x b).state = b.state := rfl
@[simp] theorem samplePipeline_fs (p : Params) (n : Nat) (x : F64) (b : Block) :
    (samplePipeline p n x b).fs = b.fs := rfl
@[simp] theorem samplePipeline_osr (p : Params) (n : Nat) (x : F64) (b : Block) :
    (samplePipeline p n x b).osr = b.osr := rfl
@[simp] theorem samplePipeline_flo (p : Params) (n : Nat) (x : F64) (b : Block) :
    (samplePipeline p n x b).flo = b.flo := rfl
@[simp] theorem samplePipeline_period (p : Params) (n : Nat) (x : F64) (b : Block) :
    (samplePipeline p n x b).period = b.period := rfl
@[simp] theorem samplePipeline_quarter (p : Params) (n : Nat) (x : F64) (b : Block) :
    (samplePipeline p n x b).quarter = b.quarter := rfl
@[simp] theorem samplePipeline_dratio (p : Params) (n : Nat) (x : F64) (b : Block) :
    (samplePipeline p n x b).dratio = b.dratio := rfl
@[simp] theorem samplePipeline_fc (p : Params) (n : Nat) (x : F64) (b : Block) :
    (samplePipeline p n x b).fc = b.fc := rfl
@[simp] theorem samplePipeline_mas (p : Params) (n : Nat) (x : F64) (b : Block) :
    (samplePipeline p n x b).mas = b.mas := rfl
@[simp] theorem samplePipeline_fsens (p : Params) (n : Nat) (x : F64) (b : Block) :
    (samplePipeline p n x b).fsens = b.fsens := rfl
@[simp] theorem samplePipeline_delay (p : Params) (n : Nat) (x : F64) (b : Block) :
    (samplePipeline p n x b).delay = b.delay := rfl
@[simp] theorem samplePipeline_phasedev (p : Params) (n : Nat) (x : F64) (b : Block) :
    (samplePipeline p n x b).phasedev = b.phasedev := rfl
@[simp] theorem samplePipeline_loIdx (p : Params) (n : Nat) (x : F64) (b : Block) :
    (samplePipeline p n x b).loIdx = (b.loIdx + 1) % b.period := rfl
@[simp] theorem samplePipeline_dlyIdx (p : Params) (n : Nat) (x : F64) (b : Block) :
    (samplePipeline p n x b).dlyIdx = (b.dlyIdx + 1) % b.delay := rfl
@[simp] theorem samplePipeline_iBuf (p : Params) (n : Nat) (x : F64) (b : Block) :
    (samplePipeline p n x b).iBuf =
      b.iBuf.write b.dlyIdx (iirProcess p (n + 2) b.fI (mix p n x b b.loIdx).1).bufOut := rfl
@[simp] theorem samplePipeline_qBuf (p : Params) (n : Nat) (x : F64) (b : Block) :
    (samplePipeline p n x b).qBuf =
      b.qBuf.write b.dlyIdx (iirProcess p (n + 7) b.fQ (mix p n x b b.loIdx).2).bufOut := rfl
@[simp] theorem samplePipeline_fI (p : Params) (n : Nat) (x : F64) (b : Block) :
    (samplePipeline p n x b).fI = iirProcess p (n + 2) b.fI (mix p n x b b.loIdx).1 := rfl
@[simp] theorem samplePipeline_fQ (p : Params) (n : Nat) (x : F64) (b : Block) :
    (samplePipeline p n x b).fQ = iirProcess p (n + 7) b.fQ (mix p n x b b.loIdx).2 := rfl
@[simp] theorem samplePipeline_fOut (p : Params) (n : Nat) (x : F64) (b : Block) :
    (samplePipeline p n x b).fOut = iirProcess p (n + 15) b.fOut
      (discriminate p (n + 12) (iirProcess p (n + 2) b.fI (mix p n x b b.loIdx).1).bufOut
        (iirProcess p (n + 7) b.fQ (mix p n x b b.loIdx).2).bufOut (dlRead b b.dlyIdx).1 (dlRead b b.dlyIdx).2) := rfl

/-! ### `respond` -/

@[simp] theorem respond_block (r : Response) (s : State) : (respond r s).block = s.block := rfl
@[simp] theorem respond_params (r : Response) (s : State) : (respond r s).params = s.params := rfl
@[simp] theorem respond_inputs (r : Response) (s : State) : (respond r s).inputs = s.inputs := rfl
@[simp] theorem respond_responses (r : Response) (s : State) : (respond r s).responses = s.responses ++ [r] := rfl
@[simp] theorem respond_nanDraws (r : Response) (s : State) : (respond r s).nanDraws = s.nanDraws := rfl

/-! ### `raise` -/

@[simp] theorem raise_block (e : Err) (s : State) : (raise e s).block = s.block := rfl
@[simp] theorem raise_params (e : Err) (s : State) : (raise e s).params = s.params := rfl
@[simp] theorem raise_inputs (e : Err) (s : State) : (raise e s).inputs = s.inputs := rfl
@[simp] theorem raise_responses (e : Err) (s : State) :
    (raise e s).responses = s.responses ++ [errResponse e s.block.state] := rfl
@[simp] theorem raise_nanDraws (e : Err) (s : State) : (raise e s).nanDraws = s.nanDraws := rfl

/-! ### `complete` -/

@[simp] theorem complete_block (b : Block) (draws : Nat) (res0 res1 : Word64) (s : State) :
    (complete b draws res0 res1 s).block = b := rfl
@[simp] theorem complete_params (b : Block) (draws : Nat) (res0 res1 : Word64) (s : State) :
    (complete b draws res0 res1 s).params = s.params := rfl
@[simp] theorem complete_inputs (b : Block) (draws : Nat) (res0 res1 : Word64) (s : State) :
    (complete b draws res0 res1 s).inputs = s.inputs := rfl
@[simp] theorem complete_responses (b : Block) (draws : Nat) (res0 res1 : Word64) (s : State) :
    (complete b draws res0 res1 s).responses = s.responses ++ [okResponse b.state res0 res1] := rfl
@[simp] theorem complete_nanDraws (b : Block) (draws : Nat) (res0 res1 : Word64) (s : State) :
    (complete b draws res0 res1 s).nanDraws = s.nanDraws + draws := rfl

/-! ### `hardwareReset` -/

@[simp] theorem hardwareReset_block (s : State) : (hardwareReset s).block = Block.reset := rfl
@[simp] theorem hardwareReset_params (s : State) : (hardwareReset s).params = s.params := rfl
@[simp] theorem hardwareReset_inputs (s : State) : (hardwareReset s).inputs = s.inputs := rfl
@[simp] theorem hardwareReset_responses (s : State) : (hardwareReset s).responses = s.responses := rfl
@[simp] theorem hardwareReset_nanDraws (s : State) : (hardwareReset s).nanDraws = s.nanDraws := rfl

/-! ### `sendFirst` -/

@[simp] theorem sendFirst_block (p : Packet) (s : State) : (sendFirst p s).block = s.block := rfl
@[simp] theorem sendFirst_params (p : Packet) (s : State) : (sendFirst p s).params = s.params := rfl
@[simp] theorem sendFirst_inputs (p : Packet) (s : State) : (sendFirst p s).inputs = .command p :: s.inputs := rfl
@[simp] theorem sendFirst_responses (p : Packet) (s : State) : (sendFirst p s).responses = s.responses := rfl
@[simp] theorem sendFirst_nanDraws (p : Packet) (s : State) : (sendFirst p s).nanDraws = s.nanDraws := rfl

/-! ### `iirProcess` and responses -/

@[simp] theorem iirProcess_bufIn (p : Params) (n : Nat) (f : Filter) (x : F64) :
    (iirProcess p n f x).bufIn = fmul (arithOf p) (n + 4) x p.b1 := rfl
@[simp] theorem iirProcess_bufOut (p : Params) (n : Nat) (f : Filter) (x : F64) :
    (iirProcess p n f x).bufOut = iirAcc p n f x := rfl
@[simp] theorem Filter.zero_bufIn : Filter.zero.bufIn = posZero := rfl
@[simp] theorem Filter.zero_bufOut : Filter.zero.bufOut = posZero := rfl
@[simp] theorem okResponse_status (st : Lifecycle) (a b : Word64) : (okResponse st a b).status = okStatus st := rfl
@[simp] theorem okResponse_res0 (st : Lifecycle) (a b : Word64) : (okResponse st a b).res0 = a := rfl
@[simp] theorem okResponse_res1 (st : Lifecycle) (a b : Word64) : (okResponse st a b).res1 = b := rfl
@[simp] theorem errResponse_status (e : Err) (st : Lifecycle) : (errResponse e st).status = errStatus e st := rfl
@[simp] theorem errResponse_res0 (e : Err) (st : Lifecycle) : (errResponse e st).res0 = 0#64 := rfl
@[simp] theorem errResponse_res1 (e : Err) (st : Lifecycle) : (errResponse e st).res1 = 0#64 := rfl

end Sys2Proof.Machine
end

