-- ==== Sys2Proof/Laws/Commands.lean ====
section
/-! SUPPORT. What each command can do, said once: one inversion lemma for each meaning, one for `exec`, one
for `step`. Later proofs cite these and do not unfold a meaning. -/

namespace Sys2Proof.Machine

/-- A CONFIGURE that fails a check raises its error. -/
theorem execConfigure_error {fs : F64} {osr : Int} {s : State} {e : Err}
    (h : configureCheck s.params s.nanDraws fs osr = some e) : execConfigure fs osr s = .next (raise e s) := by
  simp only [execConfigure, h]

/-- A CONFIGURE that passes every check completes. -/
theorem execConfigure_ok {fs : F64} {osr : Int} {s : State} (h : configureCheck s.params s.nanDraws fs osr = none) :
    execConfigure fs osr s
      = .next (complete (configureBlock s.params s.nanDraws fs osr s.block) 1 0#64 0#64 s) := by
  simp only [execConfigure, h]

/-- Everything CONFIGURE can do. -/
theorem execConfigure_cases (fs : F64) (osr : Int) (s : State) :
    (∃ e, configureCheck s.params s.nanDraws fs osr = some e ∧ execConfigure fs osr s = .next (raise e s)) ∨
    (configureCheck s.params s.nanDraws fs osr = none ∧
      execConfigure fs osr s
        = .next (complete (configureBlock s.params s.nanDraws fs osr s.block) 1 0#64 0#64 s)) := by
  cases h : configureCheck s.params s.nanDraws fs osr with
  | none => exact .inr ⟨rfl, execConfigure_ok h⟩
  | some e => exact .inl ⟨e, rfl, execConfigure_error h⟩

/-- The checks of CONFIGURE pass exactly for these operands (R161). -/
theorem configureCheck_none_iff (p : Params) (n : Nat) (fs : F64) (osr : Int) :
    configureCheck p n fs osr = none ↔
      0 < osr ∧ osr % 4 = 0 ∧ isFinite fs = true ∧ fgt fs posZero = true ∧
      fgt (configureFlo p n fs osr) posZero = true := by
  unfold configureCheck
  split_ifs with h1 h2 h3 h4
  · simp; omega
  · simp; omega
  · simp only [Bool.or_eq_true, Bool.not_eq_true'] at h3
    rcases h3 with h3 | h3 <;> simp [h3]
  · simp only [Bool.not_eq_true'] at h4
    simp [h4]
  · simp only [Bool.or_eq_true, Bool.not_eq_true', not_or, Bool.not_eq_false] at h3 h4
    exact iff_of_true rfl ⟨by omega, by omega, h3.1, h3.2, h4⟩

/-- Every error of CONFIGURE is InvalidConfiguration (R201). -/
theorem configureCheck_code {p : Params} {n : Nat} {fs : F64} {osr : Int} {e : Err}
    (h : configureCheck p n fs osr = some e) :
    e.code = .invalidConfiguration ∧ 1 ≤ e.cause ∧ e.cause ≤ 4 := by
  unfold configureCheck at h
  split_ifs at h <;> simp_all <;> subst h <;> simp

/-- An INIT_RUN that fails a check raises its error. -/
theorem execInitRun_error {ratio : Int} {fc mas fsens : F64} {s : State} {e : Err}
    (h : resolveDelay s.params s.nanDraws s.block ratio fc = .error e) :
    execInitRun ratio fc mas fsens s = .next (raise e s) := by
  simp only [execInitRun, h]

/-- An INIT_RUN that resolves a delay completes. -/
theorem execInitRun_ok {ratio : Int} {fc : F64} {s : State} {d : Nat} (mas fsens : F64)
    (h : resolveDelay s.params s.nanDraws s.block ratio fc = .ok d) :
    execInitRun ratio fc mas fsens s
      = .next (complete
          (initRunBlock d (phaseDeviation s.params (s.nanDraws + 4) d s.block.fs mas fsens) ratio fc mas fsens s.block)
          7 (zext64 d) (bits64 (phaseDeviation s.params (s.nanDraws + 4) d s.block.fs mas fsens)) s) := by
  simp only [execInitRun, h]

/-- Everything INIT_RUN can do. -/
theorem execInitRun_cases (ratio : Int) (fc mas fsens : F64) (s : State) :
    (∃ e, resolveDelay s.params s.nanDraws s.block ratio fc = .error e ∧
      execInitRun ratio fc mas fsens s = .next (raise e s)) ∨
    (∃ d, resolveDelay s.params s.nanDraws s.block ratio fc = .ok d ∧
      execInitRun ratio fc mas fsens s
        = .next (complete
            (initRunBlock d (phaseDeviation s.params (s.nanDraws + 4) d s.block.fs mas fsens) ratio fc mas fsens s.block)
            7 (zext64 d) (bits64 (phaseDeviation s.params (s.nanDraws + 4) d s.block.fs mas fsens)) s)) := by
  cases h : resolveDelay s.params s.nanDraws s.block ratio fc with
  | error e => exact .inl ⟨e, rfl, execInitRun_error h⟩
  | ok d => exact .inr ⟨d, rfl, execInitRun_ok mas fsens h⟩

/-- What a resolved delay says of the operands and the block (R166). -/
theorem resolveDelay_ok_iff (p : Params) (n : Nat) (b : Block) (ratio : Int) (fc : F64) (d : Nat) :
    resolveDelay p n b ratio fc = .ok d ↔
      b.state ≠ .unconfigured ∧ 1 ≤ ratio ∧ isFinite fc = true ∧ feq b.flo fc = false ∧
      isNaN (delayQuotient p n b ratio fc) = false ∧ delayQuotient p n b ratio fc ≠ posInf ∧
      roundHalfEven (delayQuotient p n b ratio fc) = (d : Int) ∧ 1 ≤ d ∧ d ≤ p.maxDelay := by
  unfold resolveDelay
  split_ifs <;> simp_all <;> omega

/-- An INIT_RUN fails with PrematureUse in UNCONFIGURED and with DegenerateParameters elsewhere (R202, R203). -/
theorem resolveDelay_error {p : Params} {n : Nat} {b : Block} {ratio : Int} {fc : F64} {e : Err}
    (h : resolveDelay p n b ratio fc = .error e) :
    (b.state = .unconfigured ∧ e = { code := .prematureUse, cause := 1 }) ∨
    (b.state ≠ .unconfigured ∧ e.code = .degenerateParameters ∧ 1 ≤ e.cause ∧ e.cause ≤ 5) := by
  unfold resolveDelay at h
  split_ifs at h <;> simp_all <;> subst h <;> simp

/-- Everything PROCESS_SAMPLE can do in RUNNING. -/
theorem runSample_cases (x : F64) (s : State) :
    (s.block.period ≤ s.block.loIdx ∧ runSample x s = .fault .loIndexOutOfRange) ∨
    (s.block.loIdx < s.block.period ∧ s.block.delay ≤ s.block.dlyIdx ∧
      runSample x s = .fault .delayIndexOutOfRange) ∨
    (s.block.loIdx < s.block.period ∧ s.block.dlyIdx < s.block.delay ∧
      runSample x s
        = .next (complete (samplePipeline s.params s.nanDraws x s.block) 20
            (bits64 (samplePipeline s.params s.nanDraws x s.block).fOut.bufOut) 0#64 s)) := by
  unfold runSample
  split_ifs with h1 h2
  · exact .inl ⟨h1, rfl⟩
  · exact .inr (.inl ⟨by omega, h2, rfl⟩)
  · exact .inr (.inr ⟨by omega, by omega, rfl⟩)

/-- Everything PROCESS_SAMPLE can do. -/
theorem execProcessSample_cases (x : F64) (s : State) :
    (s.block.state = .unconfigured ∧
      execProcessSample x s = .next (raise { code := .prematureUse, cause := 1 } s)) ∨
    (s.block.state = .configured ∧
      execProcessSample x s = .next (raise { code := .prematureUse, cause := 2 } s)) ∨
    (s.block.state = .running ∧ execProcessSample x s = runSample x s) := by
  unfold execProcessSample
  cases s.block.state <;> simp

/-- Everything a command can do: raise an error, complete, or stop in a state no run reaches. -/
theorem exec_cases (i : Instr) (s : State) :
    (∃ e, exec i s = .next (raise e s)) ∨
    (∃ b draws res0 res1, exec i s = .next (complete b draws res0 res1 s)) ∨
    (s.block.state = .running ∧ ∃ f, exec i s = .fault f) := by
  cases i with
  | configure fs osr =>
    rcases execConfigure_cases fs osr s with ⟨e, -, h⟩ | ⟨-, h⟩
    · exact .inl ⟨e, h⟩
    · exact .inr (.inl ⟨_, _, _, _, h⟩)
  | initRun ratio fc mas fsens =>
    rcases execInitRun_cases ratio fc mas fsens s with ⟨e, -, h⟩ | ⟨d, -, h⟩
    · exact .inl ⟨e, h⟩
    · exact .inr (.inl ⟨_, _, _, _, h⟩)
  | processSample x =>
    rcases execProcessSample_cases x s with ⟨-, h⟩ | ⟨-, h⟩ | ⟨hr, h⟩
    · exact .inl ⟨_, h⟩
    · exact .inl ⟨_, h⟩
    · rcases runSample_cases x s with ⟨-, h'⟩ | ⟨-, -, h'⟩ | ⟨-, -, h'⟩
      · exact .inr (.inr ⟨hr, _, h.trans h'⟩)
      · exact .inr (.inr ⟨hr, _, h.trans h'⟩)
      · exact .inr (.inl ⟨_, _, _, _, h.trans h'⟩)

/-- Everything serving a packet can do: perform the command it decodes to, or raise IllegalCommand. -/
theorem servePacket_cases (p : Packet) (s : State) :
    (∃ i, decode p = .command i ∧ servePacket p s = exec i s) ∨
    (∃ c, decode p = .illegal c ∧
      servePacket p s = .next (raise { code := .illegalCommand, cause := c } s)) := by
  unfold servePacket
  cases h : decode p with
  | command i => exact .inl ⟨i, rfl, rfl⟩
  | illegal c => exact .inr ⟨c, rfl, rfl⟩

end Sys2Proof.Machine
end

