-- ==== Sys2Proof/Laws/Decode.lean ====
section
/-! SUPPORT. What the decoder and the encoder are made of: the operand words and the bytes of a transport. -/

namespace Sys2Proof

open Machine

@[simp] theorem f64_bits64 (x : F64) : f64 (bits64 x) = x := rfl

/-- The operand word of an integer in range reads back as that integer. -/
theorem i32_wordOfI32 {n : Int} (h : inI32 n = true) : i32 (wordOfI32 n) = n := by
  simp only [inI32, Bool.and_eq_true, decide_eq_true_eq] at h
  have hlt : (BitVec.ofInt 32 n).toNat < 2 ^ 32 := (BitVec.ofInt 32 n).isLt
  have hw : (BitVec.setWidth 32 (BitVec.setWidth 64 (BitVec.ofInt 32 n))) = BitVec.ofInt 32 n := by
    apply BitVec.eq_of_toNat_eq
    simp only [BitVec.toNat_setWidth]
    omega
  rw [i32, wordOfI32, hw, BitVec.toInt_ofInt]
  exact Int.bmod_eq_of_le (by omega) (by omega)

/-- Every reading of an integer operand is in range. -/
theorem inI32_i32 (w : Word64) : inI32 (i32 w) = true := by
  have h1 : -2147483648 ≤ (w.setWidth 32).toInt := BitVec.le_toInt (w.setWidth 32)
  have h2 : (w.setWidth 32).toInt < 2147483648 := BitVec.toInt_lt (x := w.setWidth 32)
  unfold inI32 i32
  rw [Bool.and_eq_true, decide_eq_true_eq, decide_eq_true_eq]
  exact ⟨h1, by omega⟩

/-- An integer operand is read from bits 31:0 only. -/
theorem i32_congr {v w : Word64} (h : v.setWidth 32 = w.setWidth 32) : i32 v = i32 w := by
  rw [i32, i32, h]

@[simp] theorem bytesLE_length (k n : Nat) : (bytesLE k n).length = k := by
  induction k generalizing n with
  | zero => rfl
  | succ k ih => simp [bytesLE, ih]

/-- The bytes of a number hold that number, up to their length. -/
theorem ofBytesLE_bytesLE (k n : Nat) : ofBytesLE (bytesLE k n) = n % 256 ^ k := by
  induction k generalizing n with
  | zero => simp [bytesLE, ofBytesLE, Nat.mod_one]
  | succ k ih =>
    simp only [bytesLE, ofBytesLE, ih, BitVec.toNat_ofNat]
    rw [show (2 : Nat) ^ 8 = 256 from rfl, Nat.pow_succ', Nat.mod_mul]

/-- Bytes one after another hold the later ones above the earlier ones. -/
theorem ofBytesLE_append (as bs : List Byte) :
    ofBytesLE (as ++ bs) = ofBytesLE as + 256 ^ as.length * ofBytesLE bs := by
  induction as with
  | nil => simp [ofBytesLE]
  | cons a as ih =>
    simp only [List.cons_append, ofBytesLE, ih, List.length_cons, Nat.pow_succ]
    ring

/-- Everything a packet can decode to. -/
theorem decode_cases (p : Packet) :
    (opcode p.cmd ≠ 0x01#8 ∧ opcode p.cmd ≠ 0x02#8 ∧ opcode p.cmd ≠ 0x03#8 ∧ decode p = .illegal 1) ∨
    ((opcode p.cmd = 0x01#8 ∨ opcode p.cmd = 0x02#8 ∨ opcode p.cmd = 0x03#8) ∧ rsvd p.cmd ≠ 0#24 ∧
      decode p = .illegal 2) ∨
    (opcode p.cmd = 0x01#8 ∧ rsvd p.cmd = 0#24 ∧
      decode p = .command (.configure (f64 p.op0) (i32 p.op1))) ∨
    (opcode p.cmd = 0x02#8 ∧ rsvd p.cmd = 0#24 ∧
      decode p = .command (.initRun (i32 p.op0) (f64 p.op1) (f64 p.op2) (f64 p.op3))) ∨
    (opcode p.cmd = 0x03#8 ∧ rsvd p.cmd = 0#24 ∧ decode p = .command (.processSample (f64 p.op0))) := by
  unfold decode
  split_ifs <;> simp_all
  tauto

/-- The opcode is the command word modulo 256. -/
theorem opcode_toNat (c : Word32) : (opcode c).toNat = c.toNat % 256 := by
  simp [opcode, BitVec.extractLsb'_toNat]

/-- The reserved field is the command word over 256. -/
theorem rsvd_toNat (c : Word32) : (rsvd c).toNat = c.toNat / 256 := by
  have h := c.isLt
  simp only [rsvd, BitVec.extractLsb'_toNat, Nat.shiftRight_eq_div_pow]
  omega

@[simp] theorem packetBytes_length (p : Packet) : (packetBytes p).length = 36 := by
  simp [packetBytes]

end Sys2Proof
end

