-- ==== Sys2Proof/Laws/Float.lean ====
section
/-! SUPPORT. The fields of a packed word, the classes of values, and what each primitive does on NaNs, zeros
and finite values: the lemmas a proof about arithmetic starts from. -/

namespace Sys2Proof.Machine

theorem infMag_lt : infMag < 2 ^ 63 := by decide

theorem scale_pos : 0 < scale := by decide +kernel

/-! ### Fields of a word -/

theorem magBits_lt (a : F64) : magBits a < 2 ^ 63 := Nat.mod_lt _ (by decide)

@[simp] theorem magBits_pack {m : Nat} (neg : Bool) (h : m < 2 ^ 63) : magBits (pack neg m) = m := by
  cases neg <;> simp only [magBits, pack, BitVec.toNat_ofNat] <;> norm_num <;> omega

@[simp] theorem signBit_pack {m : Nat} (neg : Bool) (h : m < 2 ^ 63) : signBit (pack neg m) = neg := by
  cases neg <;> simp only [signBit, pack, BitVec.msb_eq_decide, BitVec.toNat_ofNat] <;> norm_num <;> omega

/-- A word is its sign and its low 63 bits. -/
theorem pack_signBit_magBits (a : F64) : pack (signBit a) (magBits a) = a := by
  apply BitVec.eq_of_toNat_eq
  have := a.isLt
  simp only [signBit, pack, magBits, BitVec.msb_eq_decide, BitVec.toNat_ofNat]
  split_ifs <;> simp_all <;> omega

/-- Two words with the same sign and low 63 bits are the same word. -/
theorem eq_of_signBit_magBits {a b : F64} (hs : signBit a = signBit b) (hm : magBits a = magBits b) : a = b := by
  rw [← pack_signBit_magBits a, ← pack_signBit_magBits b, hs, hm]

@[simp] theorem signBit_fneg (a : F64) : signBit (fneg a) = !signBit a := by
  rw [signBit, fneg, BitVec.msb_xor, show (0x8000000000000000#64).msb = true by decide]
  simp [signBit]

@[simp] theorem magBits_fneg (a : F64) : magBits (fneg a) = magBits a := by
  have h : ∀ x : Nat, x % 2 ^ 63 = x &&& (2 ^ 63 - 1) := fun x => (Nat.and_two_pow_sub_one_eq_mod x 63).symm
  simp only [magBits, fneg, BitVec.toNat_xor, h, Nat.and_xor_distrib_right]
  simp

@[simp] theorem signBit_fabs (a : F64) : signBit (fabs a) = false := by
  rw [signBit, fabs, BitVec.msb_and, show (0x7fffffffffffffff#64).msb = false by decide]
  simp

@[simp] theorem magBits_fabs (a : F64) : magBits (fabs a) = magBits a := by
  have h : ∀ x : Nat, x % 2 ^ 63 = x &&& (2 ^ 63 - 1) := fun x => (Nat.and_two_pow_sub_one_eq_mod x 63).symm
  simp only [magBits, fabs, BitVec.toNat_and, h, Nat.and_assoc]
  simp

/-! ### Classes of values -/

theorem isNaN_iff (a : F64) : isNaN a = true ↔ infMag < magBits a := by simp [isNaN]
theorem isInf_iff (a : F64) : isInf a = true ↔ magBits a = infMag := by simp [isInf]
theorem isFinite_iff (a : F64) : isFinite a = true ↔ magBits a < infMag := by simp [isFinite]
theorem isZero_iff (a : F64) : isZero a = true ↔ magBits a = 0 := by simp [isZero]

theorem isNaN_of_isFinite {a : F64} (h : isFinite a = true) : isNaN a = false := by
  simp only [isFinite_iff] at h
  simp only [isNaN, decide_eq_false_iff_not]
  omega

theorem isInf_of_isFinite {a : F64} (h : isFinite a = true) : isInf a = false := by
  simp only [isFinite_iff] at h
  simp only [isInf, decide_eq_false_iff_not]
  omega

theorem isNaN_of_isInf {a : F64} (h : isInf a = true) : isNaN a = false := by
  simp only [isInf_iff] at h
  simp only [isNaN, decide_eq_false_iff_not]
  omega

@[simp] theorem isNaN_fneg (a : F64) : isNaN (fneg a) = isNaN a := by simp [isNaN]
@[simp] theorem isInf_fneg (a : F64) : isInf (fneg a) = isInf a := by simp [isInf]
@[simp] theorem isFinite_fneg (a : F64) : isFinite (fneg a) = isFinite a := by simp [isFinite]
@[simp] theorem isNaN_fabs (a : F64) : isNaN (fabs a) = isNaN a := by simp [isNaN]
@[simp] theorem isInf_fabs (a : F64) : isInf (fabs a) = isInf a := by simp [isInf]
@[simp] theorem isFinite_fabs (a : F64) : isFinite (fabs a) = isFinite a := by simp [isFinite]

/-- Every draw is a NaN (R10). -/
@[simp] theorem isNaN_someNaN (n : Nat) : isNaN (someNaN n) = true := by
  unfold someNaN forceNaN
  rw [isNaN_iff]
  have hlt : (Config.freeNaN n).toNat % 2 ^ 52 < 2 ^ 52 := Nat.mod_lt _ (by decide)
  split_ifs with h
  · rw [magBits_pack _ (by simp [infMag])]
    simp [infMag]
  · rw [magBits_pack _ (by simp only [infMag]; omega)]
    omega

/-- Every NaN is some value of the free value. -/
theorem forceNaN_of_isNaN {a : F64} (h : isNaN a = true) : forceNaN a = a := by
  rw [isNaN_iff] at h
  have hlt := magBits_lt a
  have hm : magBits a = a.toNat % 2 ^ 63 := rfl
  have h52 : a.toNat % 2 ^ 52 = magBits a - infMag := by
    simp only [infMag] at *
    omega
  unfold forceNaN
  rw [if_neg (by omega), h52, Nat.add_sub_cancel' (Nat.le_of_lt h)]
  exact pack_signBit_magBits a

/-! ### Rounding -/

/-- A rounded magnitude is at most infinity. -/
theorem roundMag_le (n d : Nat) : roundMag n d ≤ infMag := by
  unfold roundMag
  exact Nat.min_le_right _ _

theorem roundMag_lt (n d : Nat) : roundMag n d < 2 ^ 63 := Nat.lt_of_le_of_lt (roundMag_le n d) infMag_lt

@[simp] theorem rne_zero (d : Nat) : rne 0 d = 0 := by
  unfold rne
  rcases Nat.eq_zero_or_pos d with rfl | h
  · simp
  · simp [h]

@[simp] theorem roundMag_zero (d : Nat) : roundMag 0 d = 0 := by
  unfold roundMag
  simp [Nat.log2_zero]

@[simp] theorem unitsOf_zero : unitsOf 0 = 0 := by
  unfold unitsOf
  simp

/-- A finite magnitude that is not zero has a size that is not zero. -/
theorem unitsOf_pos {m : Nat} (h : m ≠ 0) : 0 < unitsOf m := by
  unfold unitsOf
  split_ifs
  · omega
  · exact Nat.mul_pos (by omega) (Nat.pow_pos (by decide))

/-! ### The primitives -/

/-- The primitives of an instance built with the default ones. -/
theorem arithOf_binary64 {p : Params} (h : p.primitives = .binary64) : arithOf p = ieeeArith := by
  simp only [arithOf, h]

@[simp] theorem arithOf_params : arithOf Config.params = ieeeArith := rfl

theorem fadd_eq (n : Nat) (a b : F64) : fadd ieeeArith n a b = (ieeeAdd a b).getD (someNaN n) := by
  unfold fadd
  rfl

theorem fsub_eq (n : Nat) (a b : F64) : fsub ieeeArith n a b = (ieeeAdd a (fneg b)).getD (someNaN n) := by
  unfold fsub
  rfl

theorem fmul_eq (n : Nat) (a b : F64) : fmul ieeeArith n a b = (ieeeMul a b).getD (someNaN n) := by
  unfold fmul
  rfl

theorem fdiv_eq (n : Nat) (a b : F64) : fdiv ieeeArith n a b = (ieeeDiv a b).getD (someNaN n) := by
  unfold fdiv
  rfl

/-- Adding finite values. -/
theorem fadd_of_finite (n : Nat) {a b : F64} (ha : isFinite a = true) (hb : isFinite b = true) :
    fadd ieeeArith n a b = addFinite a b := by
  simp [fadd_eq, ieeeAdd, isNaN_of_isFinite, isInf_of_isFinite, ha, hb]

/-- Subtracting finite values. -/
theorem fsub_of_finite (n : Nat) {a b : F64} (ha : isFinite a = true) (hb : isFinite b = true) :
    fsub ieeeArith n a b = addFinite a (fneg b) := by
  simp [fsub_eq, ieeeAdd, isNaN_of_isFinite, isInf_of_isFinite, ha, hb]

/-- Multiplying finite values. -/
theorem fmul_of_finite (n : Nat) {a b : F64} (ha : isFinite a = true) (hb : isFinite b = true) :
    fmul ieeeArith n a b
      = pack (signXor a b) (roundMag (unitsOf (magBits a) * unitsOf (magBits b)) scale) := by
  simp [fmul_eq, ieeeMul, isNaN_of_isFinite, isInf_of_isFinite, ha, hb]

/-- Dividing finite values by a value that is not zero. -/
theorem fdiv_of_finite (n : Nat) {a b : F64} (ha : isFinite a = true) (hb : isFinite b = true)
    (hz : isZero b = false) :
    fdiv ieeeArith n a b
      = pack (signXor a b) (roundMag (unitsOf (magBits a) * scale) (unitsOf (magBits b))) := by
  simp [fdiv_eq, ieeeDiv, isNaN_of_isFinite, isInf_of_isFinite, ha, hb, hz]

/-- A NaN operand makes any primitive's result a draw. -/
theorem fadd_of_nan (n : Nat) {a b : F64} (h : isNaN a = true ∨ isNaN b = true) :
    fadd ieeeArith n a b = someNaN n := by
  rcases h with h | h <;> simp [fadd_eq, ieeeAdd, h]

theorem fsub_of_nan (n : Nat) {a b : F64} (h : isNaN a = true ∨ isNaN b = true) :
    fsub ieeeArith n a b = someNaN n := by
  rcases h with h | h <;> simp [fsub_eq, ieeeAdd, h]

theorem fmul_of_nan (n : Nat) {a b : F64} (h : isNaN a = true ∨ isNaN b = true) :
    fmul ieeeArith n a b = someNaN n := by
  rcases h with h | h <;> simp [fmul_eq, ieeeMul, h]

theorem fdiv_of_nan (n : Nat) {a b : F64} (h : isNaN a = true ∨ isNaN b = true) :
    fdiv ieeeArith n a b = someNaN n := by
  rcases h with h | h <;> simp [fdiv_eq, ieeeDiv, h]

/-- The product of a zero and a finite value is a zero whose sign is the product of the signs. -/
theorem fmul_zero_finite (n : Nat) {a b : F64} (ha : magBits a = 0) (hb : isFinite b = true) :
    fmul ieeeArith n a b = pack (signXor a b) 0 := by
  rw [fmul_of_finite n ((isFinite_iff a).mpr (by rw [ha]; decide)) hb, ha]
  simp

end Sys2Proof.Machine
end

