-- ==== Sys2Proof/Laws/Memory.lean ====
section
/-! SUPPORT. What reading and writing one entry of a delay buffer do, and that every operation keeps the
canonical form. -/

namespace Sys2Proof.Machine

@[simp] theorem Memory.read_nil (k : Nat) : Memory.read [] k = posZero := rfl

@[simp] theorem Memory.read_clear (k : Nat) : Memory.read Memory.clear k = posZero := rfl

theorem Memory.read_cons (c : Nat × F64) (m : Memory) (k : Nat) :
    Memory.read (c :: m) k = if c.1 = k then c.2 else Memory.read m k := rfl

/-- An index below every listed one reads as `+0.0`. -/
theorem Memory.read_of_lt {m : Memory} {k : Nat} (h : ∀ c ∈ m, k < c.1) : m.read k = posZero := by
  induction m with
  | nil => rfl
  | cons c m ih =>
    have hc : c.1 ≠ k := by have := h c (by simp); omega
    rw [Memory.read_cons, if_neg hc]
    exact ih fun d hd => h d (by simp [hd])

/-- The entries of a buffer after a write: the written one, or an old one. -/
theorem Memory.mem_write {m : Memory} {k : Nat} {v : F64} {c : Nat × F64} (h : c ∈ m.write k v) :
    (c = (k, v) ∧ v ≠ posZero) ∨ c ∈ m := by
  induction m with
  | nil =>
    simp only [Memory.write] at h
    split at h
    · exact absurd h (by simp)
    · exact .inl ⟨by simpa using h, ‹_›⟩
  | cons d m ih =>
    simp only [Memory.write] at h
    split at h
    · split at h
      · exact .inr h
      · rcases List.mem_cons.mp h with rfl | h
        · exact .inl ⟨rfl, ‹_›⟩
        · exact .inr h
    · split at h
      · split at h
        · exact .inr (List.mem_cons_of_mem _ h)
        · rcases List.mem_cons.mp h with rfl | h
          · exact .inl ⟨rfl, ‹_›⟩
          · exact .inr (List.mem_cons_of_mem _ h)
      · rcases List.mem_cons.mp h with rfl | h
        · exact .inr (by simp)
        · exact (ih h).imp id (List.mem_cons_of_mem _)

theorem Memory.wf_nil : Memory.wf [] := ⟨List.Pairwise.nil, by simp⟩

theorem Memory.wf_clear : Memory.wf Memory.clear := Memory.wf_nil

theorem Memory.wf_cons {c : Nat × F64} {m : Memory} :
    Memory.wf (c :: m) ↔ (∀ d ∈ m, c.1 < d.1) ∧ c.2 ≠ posZero ∧ m.wf := by
  simp only [Memory.wf, List.pairwise_cons, List.mem_cons, forall_eq_or_imp]
  tauto

/-- A write keeps the canonical form. -/
theorem Memory.write_wf {m : Memory} (k : Nat) (v : F64) (h : m.wf) : (m.write k v).wf := by
  induction m with
  | nil =>
    simp only [Memory.write]
    split
    · exact Memory.wf_nil
    · exact Memory.wf_cons.mpr ⟨by simp, ‹_›, Memory.wf_nil⟩
  | cons d m ih =>
    obtain ⟨hd, hd0, hm⟩ := Memory.wf_cons.mp h
    simp only [Memory.write]
    split
    · next hk =>
      split
      · exact h
      · refine Memory.wf_cons.mpr ⟨fun c hc => ?_, ‹_›, h⟩
        rcases List.mem_cons.mp hc with rfl | hc
        · exact hk
        · exact Nat.lt_trans hk (hd c hc)
    · split
      · next hk =>
        subst hk
        split
        · exact hm
        · exact Memory.wf_cons.mpr ⟨hd, ‹_›, hm⟩
      · refine Memory.wf_cons.mpr ⟨fun c hc => ?_, hd0, ih hm⟩
        rcases Memory.mem_write hc with ⟨rfl, -⟩ | hc
        · show d.1 < k
          omega
        · exact hd c hc

/-- An entry reads as what was last written to it. -/
theorem Memory.read_write_same {m : Memory} (k : Nat) (v : F64) (h : m.wf) : (m.write k v).read k = v := by
  induction m with
  | nil =>
    simp only [Memory.write]
    split
    · simp_all
    · simp [Memory.read_cons]
  | cons d m ih =>
    obtain ⟨hd, -, hm⟩ := Memory.wf_cons.mp h
    simp only [Memory.write]
    split
    · next hk =>
      split
      · next hv =>
        rw [hv]
        refine Memory.read_of_lt fun c hc => ?_
        rcases List.mem_cons.mp hc with rfl | hc
        · exact hk
        · exact Nat.lt_trans hk (hd c hc)
      · simp [Memory.read_cons]
    · split
      · next hk =>
        split
        · next hv => rw [hv]; exact Memory.read_of_lt fun c hc => hk ▸ hd c hc
        · simp [Memory.read_cons]
      · next hk =>
        rw [Memory.read_cons, if_neg (Ne.symm hk)]
        exact ih hm

/-- A write leaves every other entry alone, in any list. -/
theorem Memory.read_write_other {k j : Nat} (hj : j ≠ k) (m : Memory) (v : F64) :
    (m.write k v).read j = m.read j := by
  induction m with
  | nil =>
    simp only [Memory.write]
    split
    · rfl
    · simp [Memory.read_cons, Ne.symm hj]
  | cons d m ih =>
    simp only [Memory.write]
    split
    · split
      · rfl
      · rw [Memory.read_cons, if_neg (Ne.symm hj)]
    · split
      · next hk =>
        subst hk
        split
        · rw [Memory.read_cons, if_neg (Ne.symm hj)]
        · simp only [Memory.read_cons, if_neg (Ne.symm hj)]
      · simp only [Memory.read_cons, ih]

/-- A write below a bound keeps every listed index below it. -/
theorem Memory.write_lt {m : Memory} {k n : Nat} (v : F64) (hk : k < n) (h : ∀ c ∈ m, c.1 < n) :
    ∀ c ∈ m.write k v, c.1 < n := by
  intro c hc
  rcases Memory.mem_write hc with ⟨rfl, -⟩ | hc
  · exact hk
  · exact h c hc

end Sys2Proof.Machine
end

