-- ==== Sys2Proof/Laws/PerInstr.lean ====
section
/-! SUPPORT. Statements about every command as syntax, one lemma for each constructor. -/

namespace Sys2Proof.Laws.AssembledBits

/-- The packet of a command has its assigned opcode, a zero reserved field, and zero in every operand bit the
command ignores (R72, R73, R83). -/
def Statement (i : Instr) : Prop :=
  rsvd (encode i).cmd = 0#24 ∧
  match i with
  | .configure _ _ =>
    opcode (encode i).cmd = 0x01#8 ∧ (encode i).op1.extractLsb' 32 32 = 0#32 ∧
    (encode i).op2 = 0#64 ∧ (encode i).op3 = 0#64
  | .initRun _ _ _ _ => opcode (encode i).cmd = 0x02#8 ∧ (encode i).op0.extractLsb' 32 32 = 0#32
  | .processSample _ =>
    opcode (encode i).cmd = 0x03#8 ∧ (encode i).op1 = 0#64 ∧ (encode i).op2 = 0#64 ∧ (encode i).op3 = 0#64

/-- The high half of the word of an integer operand is zero. -/
theorem high_wordOfI32 (n : Int) : (Machine.wordOfI32 n).extractLsb' 32 32 = 0#32 := by
  apply BitVec.eq_of_toNat_eq
  have h := (BitVec.ofInt 32 n).isLt
  simp only [Machine.wordOfI32, BitVec.extractLsb'_toNat, BitVec.toNat_setWidth, Nat.shiftRight_eq_div_pow,
    BitVec.toNat_ofNat]
  omega

theorem configure (fs : F64) (osr : Int) : Statement (.configure fs osr) :=
  ⟨by simp [encode, rsvd], by simp [encode, opcode], high_wordOfI32 osr, rfl, rfl⟩

theorem initRun (ratio : Int) (fc mas fsens : F64) : Statement (.initRun ratio fc mas fsens) :=
  ⟨by simp [encode, rsvd], by simp [encode, opcode], high_wordOfI32 ratio⟩

theorem processSample (x : F64) : Statement (.processSample x) :=
  ⟨by simp [encode, rsvd], by simp [encode, opcode], rfl, rfl, rfl⟩

end Sys2Proof.Laws.AssembledBits
end

