-- ==== Sys2Proof/Laws/Rounding.lean ====
section
/-! SUPPORT. Magnitudes as significand and exponent, the order of magnitudes and of their sizes, and rounding
of a size that needs none. -/

namespace Sys2Proof.Machine

/-- `n / d` rounded is one of the two whole numbers around it, the nearer one, the even one at a tie. -/
theorem rne_cases (n d : Nat) :
    (rne n d = n / d ∧ (2 * (n % d) < d ∨ (2 * (n % d) = d ∧ n / d % 2 = 0))) ∨
    (rne n d = n / d + 1 ∧ (d < 2 * (n % d) ∨ (2 * (n % d) = d ∧ n / d % 2 = 1))) := by
  unfold rne
  split_ifs with h
  · exact .inl ⟨rfl, h⟩
  · exact .inr ⟨rfl, by omega⟩

/-- A whole quotient is not changed by rounding. -/
theorem rne_mul_self {d : Nat} (r : Nat) (h : 0 < d) : rne (r * d) d = r := by
  unfold rne
  simp [h]

/-- A rounded quotient stays below a whole number that the quotient is below by a whole number, and at
most one above its floor. -/
theorem rne_le (n d : Nat) : rne n d ≤ n / d + 1 := by
  rcases rne_cases n d with ⟨h, -⟩ | ⟨h, -⟩ <;> omega

theorem le_rne (n d : Nat) : n / d ≤ rne n d := by
  rcases rne_cases n d with ⟨h, -⟩ | ⟨h, -⟩ <;> omega

/-- The size of the magnitude with exponent `e` and significand `r`, the hidden bit included; a carry
into `r = 2^53` is allowed. -/
theorem unitsOf_parts {e r : Nat} (hlo : 2 ^ 52 ≤ r) (hhi : r ≤ 2 ^ 53) :
    unitsOf (e * 2 ^ 52 + r) = r * 2 ^ e := by
  unfold unitsOf
  rw [if_neg (by omega)]
  rcases Nat.lt_or_ge r (2 ^ 53) with h | h
  · have h1 : (e * 2 ^ 52 + r) % 2 ^ 52 = r - 2 ^ 52 := by omega
    have h2 : (e * 2 ^ 52 + r) / 2 ^ 52 - 1 = e := by omega
    rw [h1, h2, Nat.add_sub_cancel' hlo]
  · have hr : r = 2 ^ 53 := by omega
    have h1 : (e * 2 ^ 52 + r) % 2 ^ 52 = 0 := by omega
    have h2 : (e * 2 ^ 52 + r) / 2 ^ 52 - 1 = e + 1 := by omega
    rw [h1, h2, hr, Nat.pow_succ]
    ring

/-- The size of a magnitude below the second normal binade is the magnitude. -/
theorem unitsOf_small {m : Nat} (h : m ≤ 2 ^ 53) : unitsOf m = m := by
  rcases Nat.lt_or_ge m (2 ^ 52) with hm | hm
  · unfold unitsOf
    rw [if_pos hm]
  · have := unitsOf_parts (e := 0) hm h
    simpa using this

/-- Every magnitude is small or has an exponent and a significand. -/
theorem magnitude_cases (m : Nat) :
    m < 2 ^ 52 ∨ ∃ e r, m = e * 2 ^ 52 + r ∧ 2 ^ 52 ≤ r ∧ r < 2 ^ 53 := by
  rcases Nat.lt_or_ge m (2 ^ 52) with h | h
  · exact .inl h
  · exact .inr ⟨m / 2 ^ 52 - 1, 2 ^ 52 + m % 2 ^ 52, by omega, by omega, by omega⟩

/-- Consecutive magnitudes differ in size. -/
theorem unitsOf_lt_succ (m : Nat) : unitsOf m < unitsOf (m + 1) := by
  rcases magnitude_cases m with h | ⟨e, r, rfl, hlo, hhi⟩
  · rw [unitsOf_small (by omega), unitsOf_small (by omega)]
    omega
  · rw [unitsOf_parts hlo (by omega), show e * 2 ^ 52 + r + 1 = e * 2 ^ 52 + (r + 1) by ring,
      unitsOf_parts (by omega) (by omega)]
    exact Nat.mul_lt_mul_of_pos_right (by omega) (Nat.pow_pos (by decide))

/-- A greater magnitude has a greater size. -/
theorem unitsOf_strictMono : StrictMono unitsOf := strictMono_nat_of_lt_succ unitsOf_lt_succ

theorem unitsOf_lt_iff {a b : Nat} : unitsOf a < unitsOf b ↔ a < b := unitsOf_strictMono.lt_iff_lt

theorem unitsOf_inj {a b : Nat} : unitsOf a = unitsOf b ↔ a = b := unitsOf_strictMono.injective.eq_iff

/-- The base-two logarithm of a significand scaled by a power of two. -/
theorem log2_parts {e r : Nat} (hlo : 2 ^ 52 ≤ r) (hhi : r < 2 ^ 53) : Nat.log2 (r * 2 ^ e) = e + 52 := by
  have hpos : 0 < 2 ^ e := Nat.pow_pos (by decide)
  rw [Nat.log2_eq_iff (Nat.mul_pos (by omega) hpos).ne']
  constructor
  · rw [Nat.pow_add, Nat.mul_comm]
    exact Nat.mul_le_mul_right _ hlo
  · rw [show e + 52 + 1 = e + 53 by ring, Nat.pow_add, Nat.mul_comm]
    exact Nat.mul_lt_mul_of_pos_left hhi hpos

/-- Rounding the size of a finite magnitude gives that magnitude back: nothing is lost. -/
theorem roundMag_unitsOf {m d : Nat} (hm : m ≤ infMag) (hd : 0 < d) : roundMag (unitsOf m * d) d = m := by
  unfold roundMag
  simp only [Nat.mul_div_cancel _ hd]
  rcases magnitude_cases m with h | ⟨e, r, rfl, hlo, hhi⟩
  · have hlog : Nat.log2 m - 52 = 0 := by
      rcases Nat.eq_zero_or_pos m with rfl | hpos
      · simp [Nat.log2_zero]
      · have := (Nat.log2_lt hpos.ne').mpr h
        omega
    rw [unitsOf_small (by omega), hlog]
    simp only [pow_zero, mul_one, zero_mul, zero_add]
    rw [rne_mul_self m hd]
    omega
  · rw [unitsOf_parts hlo (by omega), log2_parts hlo hhi, Nat.add_sub_cancel,
      show r * 2 ^ e * d = r * (d * 2 ^ e) by ring,
      rne_mul_self r (Nat.mul_pos hd (Nat.pow_pos (by decide)))]
    omega

/-- One in units. -/
theorem unitsOf_one : unitsOf (magBits posOne) = scale := by decide +kernel

end Sys2Proof.Machine
end

