-- ==== Sys2Proof/Laws/Step.lean ====
section
/-! SUPPORT. Everything a step can do, said once. -/

namespace Sys2Proof.Machine

/-- Everything a step can do: idle, perform a packet, or reset. -/
theorem step_cases (s : State) :
    (s.inputs = [] ∧ step s = .next s) ∨
    (∃ p rest, s.inputs = .command p :: rest ∧ step s = servePacket p { s with inputs := rest }) ∨
    (∃ e rest, s.inputs = e :: rest ∧ (e = .reset ∨ ∃ p, e = .resetDuring p) ∧
      step s = .next (hardwareReset { s with inputs := rest })) := by
  unfold step serve
  split
  · exact .inl ⟨‹_›, rfl⟩
  · next e rest h =>
    cases e with
    | command p => exact .inr (.inl ⟨p, rest, h, rfl⟩)
    | reset => exact .inr (.inr ⟨_, rest, h, .inl rfl, rfl⟩)
    | resetDuring p => exact .inr (.inr ⟨_, rest, h, .inr ⟨p, rfl⟩, rfl⟩)

/-- The packet that `withFetchWord` places is what the next step serves, and the state is as before. -/
theorem step_withFetchWord (s : State) (nbits w : Nat) :
    step (s.withFetchWord nbits w) = servePacket (packetOfBits (w % 2 ^ nbits)) s := rfl

end Sys2Proof.Machine
end

