-- ==== Sys2Proof/Laws/Run.lean ====
section
/-! SUPPORT. Runs of the machine and of packets: one step or one packet at a time, and one list after another. -/

namespace Sys2Proof.Machine

/-- A run of one step more, by what the step answers; said for any machine, so that `core` is not unfolded. -/
theorem run_of_next (M : Host.Core) {k : Nat} {s t : M.State} (h : M.step s = .next t) :
    M.run (k + 1) s = M.run k t := by
  simp only [Host.Core.run, h]

theorem run_of_fault (M : Host.Core) {k : Nat} {s : M.State} {r : M.Fault} (h : M.step s = .fault r) :
    M.run (k + 1) s = .fault r := by
  simp only [Host.Core.run, h]

theorem run_of_refused (M : Host.Core) {k : Nat} {s : M.State} {r : M.Refusal} (h : M.step s = .refused r) :
    M.run (k + 1) s = .refused r := by
  simp only [Host.Core.run, h]

/-- The same of `core`, in the names of the model. -/
theorem core_run_of_next {k : Nat} {s t : State} (h : step s = .next t) :
    core.run (k + 1) s = core.run k t := run_of_next core h

theorem core_run_of_fault {k : Nat} {s : State} {r : Fault} (h : step s = .fault r) :
    core.run (k + 1) s = .fault r := run_of_fault core h

theorem core_run_of_refused {k : Nat} {s : State} {r : Refusal} (h : step s = .refused r) :
    core.run (k + 1) s = .refused r := run_of_refused core h

@[simp] theorem runPackets_nil (s : State) : runPackets [] s = .next s := rfl

/-- Serving a packet that completes, then the rest. -/
theorem runPackets_cons {p : Packet} {s t : State} (ps : List Packet) (h : servePacket p s = .next t) :
    runPackets (p :: ps) s = runPackets ps t := by
  simp only [runPackets, h]

/-- Serving one list that completes, then another. -/
theorem runPackets_append {ps : List Packet} {s t : State} (qs : List Packet) (h : runPackets ps s = .next t) :
    runPackets (ps ++ qs) s = runPackets qs t := by
  induction ps generalizing s with
  | nil => cases h; rfl
  | cons p ps ih =>
    simp only [List.cons_append, runPackets] at h ⊢
    cases hp : servePacket p s <;> simp only [hp] at h ⊢
    · exact ih h
    · cases h
    · cases h

/-- Which packets `isSample` holds of. -/
theorem isSample_iff (p : Packet) : isSample p = true ↔ ∃ x, decode p = .command (.processSample x) := by
  unfold isSample
  split
  · simp_all
  · next h => simp only [Bool.false_eq_true, false_iff, not_exists]; exact h

/-- A packet that stays in a run, and the packets after it. -/
theorem staysInRun_cons {p : Packet} {s t : State} {ps : List Packet} (h : servePacket p s = .next t) :
    staysInRun (p :: ps) s = true ↔ (isSample p = true ∨ lastIsError t = true) ∧ staysInRun ps t = true := by
  simp only [staysInRun, h, Bool.and_eq_true, Bool.or_eq_true]

@[simp] theorem sendPackets_inputs (ps : List Packet) (s : State) :
    (sendPackets ps s).inputs = ps.map HostEvent.command ++ s.inputs := rfl
@[simp] theorem sendPackets_block (ps : List Packet) (s : State) : (sendPackets ps s).block = s.block := rfl
@[simp] theorem sendPackets_params (ps : List Packet) (s : State) : (sendPackets ps s).params = s.params := rfl
@[simp] theorem sendPackets_responses (ps : List Packet) (s : State) :
    (sendPackets ps s).responses = s.responses := rfl
@[simp] theorem sendPackets_nanDraws (ps : List Packet) (s : State) :
    (sendPackets ps s).nanDraws = s.nanDraws := rfl

end Sys2Proof.Machine
end

