-- ==== Sys2Proof/Laws/Status.lean ====
section
/-! SUPPORT. The fields of a STATUS word (R76) and its values on success. -/

namespace Sys2Proof.Machine

@[simp] theorem statusWord_err (err cause : BitVec 4) (st : BitVec 2) :
    (statusWord err cause st).extractLsb' 0 4 = err := by
  revert err cause st
  decide +kernel

@[simp] theorem statusWord_cause (err cause : BitVec 4) (st : BitVec 2) :
    (statusWord err cause st).extractLsb' 4 4 = cause := by
  revert err cause st
  decide +kernel

@[simp] theorem statusWord_state (err cause : BitVec 4) (st : BitVec 2) :
    (statusWord err cause st).extractLsb' 8 2 = st := by
  revert err cause st
  decide +kernel

@[simp] theorem statusWord_reserved (err cause : BitVec 4) (st : BitVec 2) :
    (statusWord err cause st).extractLsb' 10 22 = 0#22 := by
  revert err cause st
  decide +kernel

theorem okStatus_configured : okStatus .configured = 0x00000100#32 := by decide
theorem okStatus_running : okStatus .running = 0x00000200#32 := by decide

/-- An error's STATUS word as a number, for a cause that fits its field (R206). -/
theorem errStatus_eq (e : Err) (st : Lifecycle) (h : e.cause < 16) :
    errStatus e st = BitVec.ofNat 32 (errNumber e.code + 16 * e.cause + 256 * stateNumber st) := by
  obtain ⟨code, cause⟩ := e
  simp only at h
  interval_cases cause <;> cases code <;> cases st <;> decide

end Sys2Proof.Machine
end

