-- ==== Sys2Proof/Tests/Slice0.lean ====
section
/-! SUPPORT. The model's own tests: well-formedness, words written out from the encoding tables, one step at a
time on small states with results from the spec's vectors (95_test_vectors.md), and for each statement with
hypotheses a state and operands that meet them. -/

-- One theorem at a time: many kernel evaluations waiting at once need a thread each.
set_option Elab.async false

namespace Sys2Proof.Tests

open Sys2Proof Sys2Proof.Machine

/-! ### Helper states -/

/-- After `CONFIGURE 8.0, 4` of program P1: `FLO = 2.0`. -/
def configuredBlock : Block :=
  { Block.reset with
    state := .configured, fs := 0x4020000000000000, osr := 4, flo := 0x4000000000000000, period := 4
    quarter := 1 }

/-- After `INIT_RUN 1, 3.0, 1.0, 1.0` of program P1: `DELAY = 4`, `PHASEDEV = 0.5`. -/
def runningBlock : Block :=
  { configuredBlock with
    state := .running, dratio := 1, fc := 0x4008000000000000, mas := posOne, fsens := posOne, delay := 4
    phasedev := 0x3fe0000000000000 }

def onBlock (b : Block) : State := { State.reset with block := b }

/-- The machine with one packet on its port. -/
def sending (p : Packet) (b : Block) : State := sendFirst p (onBlock b)

/-- The state a step answers, or the state itself if it stops. -/
def after (o : Host.Outcome State Fault Refusal) (s : State) : State :=
  match o with
  | .next t => t
  | _ => s

/-- True if the outcome is a next state that passes. -/
def nextIs (o : Host.Outcome State Fault Refusal) (f : State → Bool) : Bool :=
  match o with
  | .next t => f t
  | _ => false

/-! ### Well-formedness: an ill-formed term for each check -/

theorem test_wf_configure_osr_above : (Instr.configure posOne 2147483648).wf = false := by decide
theorem test_wf_configure_osr_below : (Instr.configure posOne (-2147483649)).wf = false := by decide
theorem test_wf_initRun_ratio_above : (Instr.initRun 2147483648 posOne posOne posOne).wf = false := by decide
theorem test_wf_initRun_ratio_below : (Instr.initRun (-2147483649) posOne posOne posOne).wf = false := by decide
theorem test_wf_processSample : (Instr.processSample 0xffffffffffffffff).wf = true := by decide

/-! ### Words written out from the encoding tables (R70 to R74; section 2.1 of the vectors) -/

theorem test_decode_configure :
    decode ⟨0b00000000000000000000000000000001, 0x41186a0000000000, 0x0000000100000004, 5, 6⟩
      = .command (.configure 0x41186a0000000000 4) := by decide
theorem test_decode_initRun :
    decode ⟨0b00000000000000000000000000000010, 0xdeadbeefffffffff, 0x40fa964000000000, 0x3ff0000000000000,
      0x7ff8000000000001⟩ = .command (.initRun (-1) 0x40fa964000000000 posOne 0x7ff8000000000001) := by decide
theorem test_decode_processSample :
    decode ⟨0b00000000000000000000000000000011, 0x8000000000000000, 1, 2, 3⟩
      = .command (.processSample 0x8000000000000000) := by decide
theorem test_decode_unassigned_first : decode ⟨0x00000104, 0, 0, 0, 0⟩ = .illegal 1 := by decide
theorem test_decode_reserved_bit : decode ⟨0x80000001, 0, 0, 0, 0⟩ = .illegal 2 := by decide
theorem test_decode_zero : decode ⟨0x00000000, 0, 0, 0, 0⟩ = .illegal 1 := by decide
theorem test_decode_bytes_configure :
    decodeBytes [1, 0, 0, 0,  0, 0, 0, 0, 0, 0x6a, 0x18, 0x41,  4, 0, 0, 0, 0, 0, 0, 0,
      0, 0, 0, 0, 0, 0, 0, 0,  0, 0, 0, 0, 0, 0, 0, 0,  7]
      = .ok (.command (.configure 0x41186a0000000000 4), [7]) := by decide +kernel
theorem test_decode_bytes_partial : decodeBytes [1, 0, 0, 0] = .error (.partialPacket 4) := by decide
theorem test_decodeTableWord :
    decodeTableWord 32 1 = some (.configure 0 0) ∧ decodeTableWord 32 2 = some (.initRun 0 0 0 0) ∧
    decodeTableWord 32 3 = some (.processSample 0) ∧ decodeTableWord 32 0x103 = none := by decide +kernel
theorem test_response_bytes :
    responseBytes ⟨0x00000200, 0x2d, 0x3f1d7dbf487fcb92⟩
      = [0, 2, 0, 0,  0x2d, 0, 0, 0, 0, 0, 0, 0,  0x92, 0xcb, 0x7f, 0x48, 0xbf, 0x7d, 0x1d, 0x3f] := by
  decide +kernel

/-! ### One step each (sections 2.6 to 2.8 and programs P1 and P2 of the vectors) -/

theorem test_configure_success :
    nextIs (exec (.configure 0x41186a0000000000 2147483644) (onBlock runningBlock)) (fun t =>
      decide (t.block.flo = 0x3f286a0000c35000 ∧ t.block.quarter = 536870911 ∧ t.block.delay = 0 ∧
        t.responses = [⟨0x00000100, 0, 0⟩])) = true := by decide +kernel
theorem test_configure_underflow :
    nextIs (exec (.configure 0x0000000000000001 4) State.reset) (fun t =>
      decide (t.block = Block.reset ∧ t.responses = [⟨0x00000041, 0, 0⟩])) = true := by decide +kernel

/-- `INIT_RUN 1, 9.0, 2.0, 3.0` after `CONFIGURE 20.0, 4` (program P3): the tie 2.5 gives 2. -/
theorem test_initRun_tie :
    nextIs (exec (.initRun 1 0x4022000000000000 posTwo 0x4008000000000000)
      (onBlock { configuredBlock with fs := 0x4034000000000000, flo := 0x4014000000000000 }))
      (fun t => decide (t.block.delay = 2 ∧ t.responses = [⟨0x00000200, 2, 0x3fe3333333333334⟩])) = true := by
  decide +kernel
/-- `fc = -8.0` with `FLO = 2.0` and `FS = 8.0`: `q = 0.4`, so the delay is 0, cause 4. -/
theorem test_initRun_delay_too_small :
    nextIs (exec (.initRun 1 0xc020000000000000 posOne posOne) (onBlock runningBlock)) (fun t =>
      decide (t.block = runningBlock ∧ t.responses = [⟨0x00000242, 0, 0⟩])) = true := by decide +kernel

/-- The first sample of program P1: the filters take in `b0` and `b1`, the pair is stored, the output is `+0.0`. -/
theorem test_processSample_first :
    nextIs (exec (.processSample posOne) (onBlock runningBlock)) (fun t =>
      decide (t.block.fI = ⟨0x3fc4467381d7dbf5, 0x3fc4467381d7dbf5⟩ ∧ t.block.loIdx = 1 ∧ t.block.dlyIdx = 1 ∧
        t.block.iBuf = [(0, 0x3fc4467381d7dbf5)] ∧ t.responses = [⟨0x00000200, 0, 0⟩])) = true := by decide +kernel
/-- Index 3 of both counters: the mixer gives `(-1.0, +1.0)` and both indices wrap to 0. -/
theorem test_processSample_wraps :
    nextIs (exec (.processSample posOne) (onBlock { runningBlock with loIdx := 3, dlyIdx := 3 })) (fun t =>
      decide (t.block.fI.bufOut = 0xbfc4467381d7dbf5 ∧ t.block.fQ.bufOut = 0x3fc4467381d7dbf5 ∧
        t.block.loIdx = 0 ∧ t.block.dlyIdx = 0)) = true := by decide +kernel

/-! ### Shared operations (sections 2.2 to 2.6 of the vectors) -/

theorem test_lo_tables_period_8 :
    (List.range 8).map (loSine 8) = [posOne, posOne, posOne, posOne, negOne, negOne, negOne, negOne] ∧
    (List.range 8).map (loCos 2) = [posOne, posOne, negOne, negOne, negOne, negOne, posOne, posOne] := by
  decide
theorem test_iir_impulse_second :
    iirAcc Config.params 0 ⟨0x3fc4467381d7dbf5, 0x3fc4467381d7dbf5⟩ posZero = 0x3fd11048a286274c := by
  decide +kernel
theorem test_iir_negative_zero :
    iirProcess Config.params 0 Filter.zero 0x8000000000000000 = ⟨0x8000000000000000, posZero⟩ := by decide +kernel
theorem test_discriminate :
    discriminate Config.params 0 0x3fe0000000000000 0x3fd0000000000000 0x3fc0000000000000 0x4000000000000000
      = 0x3fef000000000000 := by decide +kernel
theorem test_roundHalfEven_ties :
    roundHalfEven 0x4004000000000000 = 2 ∧ roundHalfEven 0x401e000000000000 = 8 ∧
    roundHalfEven 0x4029000000000000 = 12 := by decide +kernel
theorem test_assemble_tiny :
    assembleText "CONFIGURE 5e-324, 4".toList = .ok ⟨1, 0x0000000000000001, 4, 0, 0⟩ := by decide +kernel

theorem test_assemble_hex_prefixes :
    assembleText "PROCESS_SAMPLE -0X1.8P+1".toList = .ok ⟨3, 0xc008000000000000, 0, 0, 0⟩ ∧
    assembleText "PROCESS_SAMPLE 0x1.8p+1f".toList = .error .badOperand := by decide +kernel
theorem test_other_primitives :
    arithOf { Config.params with primitives := .other 7 } = Config.otherArith 7 := rfl

/-! ### Witnesses: the hypotheses of each statement, met together -/

def wPacket (cmd : Word32) : Packet := ⟨cmd, 0x4020000000000000, 4, 0, 0⟩

theorem witness_DecodeOfEncodeIsTheCommand :
    (Instr.configure posOne 2147483647).wf = true ∧ (Instr.initRun (-2147483648) posOne posOne posOne).wf = true ∧
    (Instr.processSample posOne).wf = true := by decide
theorem witness_EncodeOfDecodeKeepsEveryReadBit :
    decode (wPacket 1) = .command (.configure 0x4020000000000000 4) ∧
    decode (wPacket 2) = .command (.initRun 0 4 0 0) ∧
    decode (wPacket 3) = .command (.processSample 0x4020000000000000) := by decide
theorem witness_DecodingIsTheFiveCases :
    (wPacket 1).cmd = 0x00000001#32 ∧ (wPacket 2).cmd = 0x00000002#32 ∧ (wPacket 3).cmd = 0x00000003#32 ∧
    (wPacket 4).cmd.toNat % 256 ∉ [1, 2, 3] ∧
    ((wPacket 0x103).cmd.toNat % 256 ∈ [1, 2, 3] ∧ (wPacket 0x103).cmd.toNat / 256 ≠ 0) := by decide
theorem witness_IgnoredBitsHaveNoEffect :
    (wPacket 1).cmd = (⟨1, 0x4020000000000000, 0xffffffff00000004, 7, 8⟩ : Packet).cmd ∧
    ((wPacket 1).op0 = (⟨1, 0x4020000000000000, 0xffffffff00000004, 7, 8⟩ : Packet).op0 ∧
      (wPacket 1).op1.setWidth 32 = (⟨1, 0x4020000000000000, 0xffffffff00000004, 7, 8⟩ : Packet).op1.setWidth 32) := by
  decide
theorem witness_BytesOfAPacketDecodeAsThePacket :
    (3 < 4 ∧ 7 < 8) ∧ (List.replicate 35 (0 : Byte)).length < 36 := by decide
theorem witness_StepRunsTheDecodedCommand :
    (sending (wPacket 1) Block.reset).inputs = .command (wPacket 1) :: [] ∧
    decode (wPacket 1) = .command (.configure 0x4020000000000000 4) ∧
    (Instr.configure 0x4020000000000000 4).wf = true := by decide
theorem witness_IllegalPacketIsAnsweredAndChangesNothing :
    (sending (wPacket 0xff04) runningBlock).inputs = .command (wPacket 0xff04) :: [] ∧
    (wPacket 0xff04).cmd.toNat % 256 ∉ [1, 2, 3] ∧
    (sending (wPacket 0x101) runningBlock).inputs = .command (wPacket 0x101) :: [] ∧
    (wPacket 0x101).cmd.toNat % 256 ∈ [1, 2, 3] ∧ (wPacket 0x101).cmd.toNat / 256 ≠ 0 := by decide
theorem witness_IdleBlockKeepsItsState : (onBlock runningBlock).inputs = [] := by decide
theorem witness_HardwareResetClearsTheBlock :
    { onBlock runningBlock with inputs := [.reset] }.inputs = .reset :: [] ∧
    { onBlock runningBlock with inputs := [.resetDuring (wPacket 3)] }.inputs = .resetDuring (wPacket 3) :: [] := by
  decide

/-- `CONFIGURE 8.0, 4` has `FLO = 2.0`. -/
theorem witness_ConfigureWritesEveryField :
    0 < (4 : Int) ∧ (4 : Int) % 4 = 0 ∧ isFinite 0x4020000000000000 = true ∧
    fgt 0x4020000000000000 posZero = true ∧
    (arithOf State.reset.params).fdiv 0x4020000000000000 (f64OfInt 4) = some 0x4000000000000000 ∧
    fgt 0x4000000000000000 posZero = true ∧
    (onBlock configuredBlock).block.state = .configured ∧
    nextIs (servePacket (wPacket 3) (onBlock configuredBlock)) (fun _ => true) = true ∧
    decode (wPacket 3) = .command (.processSample 0x4020000000000000) := by decide +kernel
/-- The least subnormal over 4 is `+0.0`, which is not greater than zero. -/
theorem least_over_4 : (arithOf State.reset.params).fdiv 1 (f64OfInt 4) = some posZero := by decide +kernel
/-- `osr = 0`, `osr = 6`, `fs = +inf`, `fs = -0.0`, and the least subnormal over 4. -/
theorem witness_ConfigureRaisesTheFirstFailingCheck :
    ((0 : Int) ≤ 0 ∧ 1 = 1) ∧ (0 < (6 : Int) ∧ (6 : Int) % 4 ≠ 0 ∧ 2 = 2) ∧
    (0 < (4 : Int) ∧ (4 : Int) % 4 = 0 ∧ (isFinite posInf = false ∨ fgt posInf posZero = false) ∧ 3 = 3) ∧
    (0 < (4 : Int) ∧ (4 : Int) % 4 = 0 ∧
      (isFinite 0x8000000000000000 = false ∨ fgt 0x8000000000000000 posZero = false) ∧ 3 = 3) ∧
    (0 < (4 : Int) ∧ (4 : Int) % 4 = 0 ∧ isFinite 1 = true ∧ fgt 1 posZero = true ∧
      (∀ flo, (arithOf State.reset.params).fdiv 1 (f64OfInt 4) = some flo → fgt flo posZero = false) ∧ 4 = 4) := by
  refine ⟨by decide, by decide, by decide, by decide, by decide, by decide, by decide, by decide, ?_, rfl⟩
  intro flo h
  rw [least_over_4] at h
  cases h
  decide
theorem witness_PowerOnValuesAreUnobservable :
    State.reset.block.state = .unconfigured ∧ (onBlock { Block.reset with fs := posOne }).block.state = .unconfigured ∧
    State.reset.params = (onBlock { Block.reset with fs := posOne }).params ∧
    State.reset.inputs = (onBlock { Block.reset with fs := posOne }).inputs ∧
    State.reset.responses = (onBlock { Block.reset with fs := posOne }).responses ∧
    State.reset.nanDraws = (onBlock { Block.reset with fs := posOne }).nanDraws := by decide
theorem witness_LoFrequencyIsFinite :
    isFinite 0x7fefffffffffffff = true ∧ (4 : Int) ≤ 4 ∧ (4 : Int) ≤ 2147483647 := by decide

/-- `INIT_RUN 1, 3.0, 1.0, 1.0` after `CONFIGURE 8.0, 4`: `diff = -1.0`, `q = 8.0 / 2.0 = 4.0`. -/
theorem quotient_is_4 : delayQuotient Config.params 0 configuredBlock 1 0x4008000000000000 = 0x4010000000000000 := by
  decide +kernel
theorem witness_InitRunStartsARun :
    (onBlock configuredBlock).params.primitives = .binary64 ∧ (onBlock configuredBlock).block.state ≠ .unconfigured ∧
    (1 : Int) ≤ 1 ∧ isFinite 0x4008000000000000 = true ∧ feq configuredBlock.flo 0x4008000000000000 = false ∧
    (let A := arithOf (onBlock configuredBlock).params
     let q := fdiv A 3 (fmul A 1 (f64OfInt 1) (onBlock configuredBlock).block.fs)
       (fmul A 2 posTwo (fabs (fsub A 0 (onBlock configuredBlock).block.flo 0x4008000000000000)))
     isNaN q = false ∧ q ≠ posInf ∧ roundHalfEven q = ((4 : Nat) : Int)) ∧
    1 ≤ 4 ∧ 4 ≤ (onBlock configuredBlock).params.maxDelay := by
  refine ⟨by decide, by decide, by decide, by decide, by decide +kernel, ?_, by decide, by decide⟩
  show isNaN (delayQuotient Config.params 0 configuredBlock 1 0x4008000000000000) = false ∧
    delayQuotient Config.params 0 configuredBlock 1 0x4008000000000000 ≠ posInf ∧
    roundHalfEven (delayQuotient Config.params 0 configuredBlock 1 0x4008000000000000) = ((4 : Nat) : Int)
  rw [quotient_is_4]
  decide +kernel
/-- The greatest finite sampling frequency beside `FLO = 2.0`, where products overflow. -/
def hugeBlock : Block := { configuredBlock with fs := 0x7fefffffffffffff }

/-- An infinite numerator over an infinite denominator is a NaN quotient. -/
theorem huge_quotient_isNaN : isNaN (delayQuotient Config.params 0 hugeBlock 4 0x7fefffffffffffff) = true := by
  have h : ieeeDiv (fmul ieeeArith 1 (f64OfInt 4) hugeBlock.fs)
      (fmul ieeeArith 2 posTwo (fabs (fsub ieeeArith 0 hugeBlock.flo 0x7fefffffffffffff))) = none := by decide +kernel
  unfold delayQuotient
  simp only [arithOf_params, fdiv_eq, Nat.zero_add, h, Option.getD_none, isNaN_someNaN]

/-- UNCONFIGURED; then in CONFIGURED `ratio = 0`, `fc = +inf`, `fc = FLO`, a NaN quotient, an infinite quotient,
a quotient that rounds to 0, and one above the capacity. -/
theorem witness_InitRunRaisesTheFirstFailingCheck :
    State.reset.params.primitives = .binary64 ∧ State.reset.block.state = .unconfigured ∧
    configuredBlock.state ≠ .unconfigured ∧
    hugeBlock.state ≠ .unconfigured ∧ (0 : Int) < 1 ∧ isFinite posInf = false ∧
    feq configuredBlock.flo 0x4000000000000000 = true ∧
    isNaN (delayQuotient Config.params 0 hugeBlock 4 0x7fefffffffffffff) = true ∧
    delayQuotient Config.params 0 hugeBlock 4 0x4008000000000000 = posInf ∧
    (delayQuotient Config.params 0 configuredBlock 1 0xc020000000000000 = 0x3fd999999999999a ∧
      roundHalfEven 0x3fd999999999999a < 1) ∧
    (delayQuotient Config.params 0 configuredBlock 2147483647 0x4008000000000000 = 0x41ffffffffc00000 ∧
      4096 < roundHalfEven 0x41ffffffffc00000) :=
  ⟨by decide, by decide, by decide, by decide, by decide, by decide, by decide +kernel, huge_quotient_isNaN,
    by decide +kernel, by decide +kernel, by decide +kernel⟩
theorem witness_InitRunForgetsTheEarlierRun :
    runningBlock.state ≠ .unconfigured ∧ configuredBlock.fs = runningBlock.fs ∧
    configuredBlock.osr = runningBlock.osr ∧ configuredBlock.flo = runningBlock.flo ∧
    configuredBlock.period = runningBlock.period ∧ configuredBlock.quarter = runningBlock.quarter ∧
    nextIs (exec (.initRun 1 0x4008000000000000 posOne posOne) (onBlock configuredBlock)) (fun u =>
      decide (u.responses = [] ++ [⟨0x00000200#32, 4, 0x3fe0000000000000⟩])) = true := by decide +kernel

theorem configured_inv : StateInv (onBlock configuredBlock) := by
  refine ⟨by decide +kernel, ?_⟩
  show ConfigOk Config.params configuredBlock ∧ RunCleared configuredBlock
  unfold ConfigOk RunCleared
  decide +kernel

theorem running_inv : StateInv (onBlock runningBlock) := by
  refine ⟨by decide +kernel, ?_⟩
  show ConfigOk Config.params runningBlock ∧ RunOk Config.maxDelay runningBlock
  unfold ConfigOk RunOk BufferOk
  decide +kernel

theorem witness_DelayQuotientIsNotNegative :
    StateInv (onBlock configuredBlock) ∧ (onBlock configuredBlock).params.primitives = .binary64 ∧
    (onBlock configuredBlock).block.state ≠ .unconfigured ∧ (1 : Int) ≤ 1 ∧
    isFinite 0x4008000000000000 = true ∧ feq (onBlock configuredBlock).block.flo 0x4008000000000000 = false :=
  ⟨configured_inv, by decide, by decide, by decide, by decide, by decide +kernel⟩

/-- RUNNING with both indices at the top of their range. -/
theorem witness_ProcessSampleRunsThePipeline :
    (onBlock { runningBlock with loIdx := 3, dlyIdx := 3 }).block.state = .running ∧
    (onBlock { runningBlock with loIdx := 3, dlyIdx := 3 }).block.loIdx < 4 ∧
    (onBlock { runningBlock with loIdx := 3, dlyIdx := 3 }).block.dlyIdx < 4 := by decide
theorem witness_PrematureUseIsAnsweredAndChangesNothing :
    State.reset.block.state = .unconfigured ∧ (onBlock configuredBlock).block.state = .configured ∧
    (onBlock runningBlock).block.state = .running ∧ runningBlock.loIdx < runningBlock.period ∧
    runningBlock.dlyIdx < runningBlock.delay := by decide
theorem witness_ProcessSampleWritesOnePair :
    (onBlock runningBlock).block.state = .running ∧
    (onBlock runningBlock).block.loIdx < (onBlock runningBlock).block.period ∧
    (onBlock runningBlock).block.dlyIdx < (onBlock runningBlock).block.delay ∧
    (onBlock runningBlock).block.iBuf.wf ∧ (onBlock runningBlock).block.qBuf.wf := by decide
theorem witness_ProcessSampleFrame :
    nextIs (exec (.processSample posOne) (onBlock runningBlock)) (fun _ => true) = true := by decide +kernel
theorem witness_InitRunFrame :
    nextIs (exec (.initRun 0 posOne posOne posOne) (onBlock runningBlock)) (fun _ => true) = true ∧
    nextIs (exec (.initRun 1 0x4008000000000000 posOne posOne) (onBlock runningBlock)) (fun _ => true) = true := by
  decide +kernel
theorem witness_SampleStopsOnlyOutsideItsTables :
    (match exec (.processSample posOne) (onBlock { runningBlock with loIdx := 4 }) with
      | .fault f => decide (f = .loIndexOutOfRange) | _ => false) = true ∧
    (match exec (.processSample posOne) (onBlock { runningBlock with dlyIdx := 4 }) with
      | .fault f => decide (f = .delayIndexOutOfRange) | _ => false) = true := by decide +kernel
/-- A NaN and an infinite sample, and each filter register poisoned. -/
theorem witness_NaNPoisonsTheRun :
    (onBlock runningBlock).params.primitives = .binary64 ∧ (onBlock runningBlock).block.state = .running ∧
    runningBlock.loIdx < runningBlock.period ∧ runningBlock.dlyIdx < runningBlock.delay ∧
    isNaN 0x7ff8000000000000 = true ∧ isFinite 0xfff0000000000000 = false ∧
    isNaN { runningBlock with fOut := ⟨posZero, 0xfff0000000000001⟩ }.fOut.bufOut = true ∧
    isFinite { runningBlock with fOut := ⟨posZero, posInf⟩ }.fOut.bufOut = false ∧
    isFinite { runningBlock with fI := ⟨posZero, posInf⟩ }.fI.bufOut = false ∧
    isFinite { runningBlock with fQ := ⟨posZero, posInf⟩ }.fQ.bufOut = false := by decide
/-- A run with an illegal packet and a failing CONFIGURE between its samples. -/
def mixedRun (x : F64) : List Packet :=
  [⟨3, x, 0, 0, 0⟩, ⟨0xff, 0, 0, 0, 0⟩, ⟨1, x, 6, 0, 0⟩, ⟨3, x, 0, 0, 0⟩]
theorem witness_PoisonLastsForTheRun :
    isNaN 0x7ff8000000000000 = true ∧ isFinite posInf = false ∧
    (onBlock runningBlock).params.primitives = .binary64 ∧ (onBlock runningBlock).block.state = .running ∧
    runningBlock.loIdx < runningBlock.period ∧ runningBlock.dlyIdx < runningBlock.delay ∧
    decode ⟨3, posInf, 0, 0, 0⟩ = .command (.processSample posInf) ∧
    staysInRun (mixedRun posInf) (onBlock runningBlock) = true ∧
    staysInRun (mixedRun 0x7ff8000000000000) (onBlock runningBlock) = true := by decide +kernel

/-- A failing CONFIGURE in RUNNING, section 2.9 of the vectors: `0x00000221`. -/
theorem witness_ErrorsWriteNothing :
    nextIs (servePacket ⟨1, 0x4020000000000000, 6, 0, 0⟩ (onBlock runningBlock)) (fun t =>
      decide (t.responses = [] ++ [⟨0x00000221, 0, 0⟩] ∧ (0x00000221#32).extractLsb' 0 4 ≠ 0#4)) = true := by
  decide +kernel
theorem witness_EveryPacketGetsOneResponse :
    nextIs (servePacket ⟨0xff, 0, 0, 0, 0⟩ (onBlock configuredBlock)) (fun t =>
      decide (t.responses = [⟨0x00000114, 0, 0⟩])) = true := by decide +kernel
theorem witness_LifecycleTransitions :
    nextIs (servePacket (wPacket 1) (onBlock runningBlock)) (fun t =>
      decide (t.responses = [] ++ [⟨0x00000100, 0, 0⟩])) = true ∧
    nextIs (servePacket ⟨2, 1, 0x4008000000000000, posOne, posOne⟩ (onBlock configuredBlock)) (fun t =>
      decide (t.responses = [] ++ [⟨0x00000200, 4, 0x3fe0000000000000⟩])) = true ∧
    nextIs (servePacket (wPacket 3) (onBlock configuredBlock)) (fun t =>
      decide (t.responses = [] ++ [⟨0x00000123, 0, 0⟩])) = true ∧
    nextIs (step { onBlock runningBlock with inputs := [.reset] }) (fun t =>
      decide (t.responses = [])) = true := by decide +kernel
theorem witness_ParametersNeverChange :
    nextIs (step (sending (wPacket 1) runningBlock)) (fun _ => true) = true := by decide +kernel
theorem witness_BuffersStayCanonical :
    Memory.wf [(0, posOne), (3, negOne)] ∧
    nextIs (step (sending (wPacket 3) { runningBlock with iBuf := [(0, posOne), (3, negOne)] })) (fun _ => true)
      = true := by decide +kernel
theorem witness_EveryStepKeepsTheInvariant :
    StateInv (sending (wPacket 3) runningBlock) ∧
    nextIs (step (sending (wPacket 3) runningBlock)) (fun _ => true) = true :=
  ⟨running_inv, by decide +kernel⟩
theorem witness_NoStepStops : StateInv (onBlock runningBlock) ∧ StateInv (onBlock configuredBlock) :=
  ⟨running_inv, configured_inv⟩
/-- Two machines whose output filters hold different NaNs. -/
theorem witness_NaNPayloadsNeverSteerTheBlock :
    (onBlock { runningBlock with fOut := ⟨posZero, 0x7ff8000000000000⟩ }).params.primitives = .binary64 ∧
    SameState (onBlock { runningBlock with fOut := ⟨posZero, 0x7ff8000000000000⟩ })
      { onBlock { runningBlock with fOut := ⟨posZero, 0xfff0000000000001⟩ } with nanDraws := 9 } := by
  refine ⟨rfl, ⟨rfl, .inl rfl, rfl, .inl rfl, rfl, rfl, rfl, .inl rfl, .inl rfl, .inl rfl, rfl, .inl rfl, rfl, rfl,
    .nil, .nil, ⟨.inl rfl, .inl rfl⟩, ⟨.inl rfl, .inl rfl⟩, ⟨.inl rfl, .inr ⟨by decide, by decide⟩⟩⟩,
    rfl, rfl, .nil⟩
theorem witness_InstancesShareNothing :
    (match systemStep 1 [onBlock runningBlock, sending (wPacket 1) Block.reset] with
      | some (.next sys) => decide (sys.length = 2) | _ => false) = true := by decide +kernel
theorem witness_OnlyValidParametersBuildAnInstance :
    (1 ≤ Config.params.maxDelay ∧ Config.params.maxDelay ≤ 2 ^ 31 ∧ isFinite Config.params.b0 = true ∧
      isFinite Config.params.b1 = true ∧ isFinite Config.params.a1 = true ∧
      (signedUnits Config.params.a1).natAbs < scale) ∧
    ¬ ((signedUnits posOne).natAbs < scale) := by decide +kernel

/-- `INIT_RUN 1, 3.0, 1.0, 1.0` in `configuredBlock` answers `0x00000200` with a delay of 4. -/
def startedState : State :=
  { onBlock runningBlock with responses := [⟨0x00000200, 4, 0x3fe0000000000000⟩], nanDraws := 7 }
theorem init_of_configured :
    exec (.initRun 1 0x4008000000000000 posOne posOne) (onBlock configuredBlock) = .next startedState := by
  have h : resolveDelay (onBlock configuredBlock).params (onBlock configuredBlock).nanDraws
      (onBlock configuredBlock).block 1 0x4008000000000000 = .ok 4 := by decide +kernel
  have hp : phaseDeviation (onBlock configuredBlock).params ((onBlock configuredBlock).nanDraws + 4) 4
      (onBlock configuredBlock).block.fs posOne posOne = 0x3fe0000000000000 := by decide +kernel
  show execInitRun 1 0x4008000000000000 posOne posOne (onBlock configuredBlock) = _
  simp only [execInitRun, h, hp]
  rfl
theorem witness_IndicesCountTheSamples :
    StateInv (onBlock configuredBlock) ∧ inI32 1 = true ∧
    exec (.initRun 1 0x4008000000000000 posOne posOne) (onBlock configuredBlock) = .next startedState ∧
    startedState.responses = [] ++ [⟨0x00000200#32, 4, 0x3fe0000000000000⟩] ∧
    staysInRun (mixedRun posOne) startedState = true :=
  ⟨configured_inv, by decide, init_of_configured, rfl, by decide +kernel⟩
/-- One packet before the sample, and three samples after it with a failing command among them. -/
theorem witness_DelayedPairHasAgeDelay :
    isSample ⟨3, posOne, 0, 0, 0⟩ = true ∧
    (⟨3, posOne, 0, 0, 0⟩ :: mixedRun posOne).countP isSample + 1 = startedState.block.delay ∧
    staysInRun ([⟨0, 0, 0, 0, 0⟩] ++ ⟨3, posOne, 0, 0, 0⟩ :: (⟨3, posOne, 0, 0, 0⟩ :: mixedRun posOne))
      startedState = true ∧
    (mixedRun posOne).countP isSample < startedState.block.delay := by decide +kernel
/-- A failing command and one sample, so the prefixes are those of no, one and two packets. -/
theorem witness_FirstDelayOutputsAreZero :
    (onBlock configuredBlock).params.primitives = .binary64 ∧
    staysInRun [⟨0, 0, 0, 0, 0⟩, ⟨3, posOne, 0, 0, 0⟩] startedState = true ∧
    [(⟨0, 0, 0, 0, 0⟩ : Packet), ⟨3, posOne, 0, 0, 0⟩].countP isSample ≤ startedState.block.delay ∧
    (∀ (ys zs : List Packet) (v : State), ys ++ zs = [⟨0, 0, 0, 0, 0⟩, ⟨3, posOne, 0, 0, 0⟩] →
      runPackets ys startedState = .next v →
      isFinite v.block.fI.bufOut = true ∧ isFinite v.block.fQ.bufOut = true) ∧
    fgt posZero startedState.params.a1 = true := by
  refine ⟨by decide, by decide +kernel, by decide, ?_, by decide +kernel⟩
  intro ys zs v h hv
  have key : ∀ ys ∈ [[], [⟨0, 0, 0, 0, 0⟩], [⟨0, 0, 0, 0, 0⟩, ⟨3, posOne, 0, 0, 0⟩]],
      nextIs (runPackets ys startedState)
        (fun v => isFinite v.block.fI.bufOut && isFinite v.block.fQ.bufOut) = true := by decide +kernel
  have hys : ys ∈ List.inits [⟨0, 0, 0, 0, 0⟩, ⟨3, posOne, 0, 0, 0⟩] := (List.mem_inits _ _).mpr ⟨zs, h⟩
  have := key ys hys
  rw [hv] at this
  simpa [nextIs] using this

theorem witness_MixerIsExact : isNaN 0x8000000000000000 = false ∧ isNaN 0x7ff0000000000001 = true := by decide
theorem witness_LoTablesHaveTheirShape : 1 ≤ 1 ∧ 3 < 4 * 1 := by decide
theorem witness_ZeroInputKeepsTheZeroFilter :
    validParams Config.params = true ∧ Config.params.primitives = .binary64 ∧
    signBit Config.params.b0 = false ∧ signBit Config.params.b1 = false := by
  decide +kernel
theorem witness_EqualPairsDiscriminateToZero :
    isFinite 0x3fd3333333333333 = true ∧ isFinite 0x3fe6666666666666 = true ∧
    isFinite (fmul ieeeArith 0 0x3fd3333333333333 0x3fe6666666666666) = true := by decide +kernel
/-- Finite operands with a sum and a difference that are not zero, two negative zeros, and one over a zero. -/
theorem witness_PrimitivesRoundTheExactResult :
    isFinite 0x0000000000000001 = true ∧ isFinite 0xffefffffffffffff = true ∧
    signedUnits 0x0000000000000001 + signedUnits 0xffefffffffffffff ≠ 0 ∧ isZero 0xffefffffffffffff = false ∧
    signedUnits 0x8000000000000000 + signedUnits 0x8000000000000000 = 0 ∧ isZero posOne = false ∧
    isZero 0x8000000000000000 = true := by
  decide +kernel
theorem witness_PrimitivesOnInfinitiesAndNaNs :
    isNaN 0x7ff0000000000001 = true ∧ isInf posInf = true ∧ isFinite posZero = true ∧
    (isInf 0xfff0000000000000 = true ∧ signBit posInf ≠ signBit 0xfff0000000000000) ∧ isZero posZero = true ∧
    (isNaN posOne = false ∧ isZero posOne = false) := by decide
theorem witness_RoundingIsToNearestEven : 0 < 1 ∧ roundMag 1 2 < infMag := by decide +kernel
theorem witness_ComparisonsAreNumeric :
    isFinite posZero = true ∧ isFinite 0x8000000000000000 = true ∧ isNaN 0xfff8000000000000 = true := by decide
theorem witness_RoundHalfEvenIsNearest : isFinite 0x4004000000000000 = true := by decide
theorem witness_SmallIntegersConvertExactly :
    (-9007199254740992 : Int).natAbs ≤ 2 ^ 53 ∧ validParams Config.params = true ∧ 4096 ≤ Config.params.maxDelay := by
  decide +kernel
theorem witness_DifferenceIsZeroExactlyWhenEqual :
    isFinite 0x0000000000000001 = true ∧ isFinite 0x0000000000000002 = true := by decide

end Sys2Proof.Tests
end

/-! ## Steps, packets and runs: what a step keeps, and how a packet is served -/

namespace Sys2Proof.Machine

/-! ### The parameters through a step (R5) -/

theorem exec_params {i : Instr} {s t : State} (h : exec i s = .next t) : t.params = s.params := by
  rcases exec_cases i s with ⟨e, h'⟩ | ⟨b, draws, res0, res1, h'⟩ | ⟨-, f, h'⟩ <;> rw [h'] at h <;> cases h
  · exact raise_params e s
  · exact complete_params b draws res0 res1 s

theorem servePacket_params {p : Packet} {s t : State} (h : servePacket p s = .next t) : t.params = s.params := by
  rcases servePacket_cases p s with ⟨i, -, h'⟩ | ⟨c, -, h'⟩ <;> rw [h'] at h
  · exact exec_params h
  · cases h
    exact raise_params _ s

theorem step_params {s t : State} (h : step s = .next t) : t.params = s.params := by
  rcases step_cases s with ⟨-, h'⟩ | ⟨p, rest, -, h'⟩ | ⟨e, rest, -, -, h'⟩ <;> rw [h'] at h
  · cases h
    rfl
  · exact (servePacket_params h).trans rfl
  · cases h
    rfl

/-- Settles O30: an error, a completion and a hardware reset each keep the parameters. -/
theorem parametersNeverChange : Obligations.ParametersNeverChange := fun _ _ => step_params

/-! ### A step that serves a packet (R4, R81) -/

/-- With a packet at the head of the port, a step serves it. -/
theorem step_of_command {s : State} {p : Packet} {rest : List HostEvent} (h : s.inputs = .command p :: rest) :
    step s = servePacket p { s with inputs := rest } := by
  simp only [step, serve, h, serveEvent]

/-- A packet that decodes to a command is served by performing the command. -/
theorem servePacket_of_command {p : Packet} {i : Instr} (h : decode p = .command i) (s : State) :
    servePacket p s = exec i s := by
  simp only [servePacket, h]

/-- An illegal packet is answered IllegalCommand. -/
theorem servePacket_of_illegal {p : Packet} {c : Nat} (h : decode p = .illegal c) (s : State) :
    servePacket p s = .next (raise { code := .illegalCommand, cause := c } s) := by
  simp only [servePacket, h]

/-- Settles O8: the step serves the packet, and the packet is the command. -/
theorem stepRunsTheDecodedCommand : Obligations.StepRunsTheDecodedCommand := by
  intro s p rest i hin hdec _
  rw [step_of_command hin, servePacket_of_command hdec]

/-! ### A command and what is still to be sent (R4, R60) -/

/-- The outcome with its next state, if it has one, changed by `f`. -/
def mapNext (f : State → State) : Host.Outcome State Fault Refusal → Host.Outcome State Fault Refusal
  | .next s => .next (f s)
  | .fault r => .fault r
  | .refused r => .refused r

@[simp] theorem mapNext_next (f : State → State) (s : State) : mapNext f (.next s) = .next (f s) := rfl
@[simp] theorem mapNext_fault (f : State → State) (r : Fault) : mapNext f (.fault r) = .fault r := rfl
@[simp] theorem mapNext_refused (f : State → State) (r : Refusal) : mapNext f (.refused r) = .refused r := rfl

@[simp] theorem raise_sendPackets (e : Err) (ps : List Packet) (s : State) :
    raise e (sendPackets ps s) = sendPackets ps (raise e s) := rfl

@[simp] theorem complete_sendPackets (b : Block) (draws : Nat) (res0 res1 : Word64) (ps : List Packet) (s : State) :
    complete b draws res0 res1 (sendPackets ps s) = sendPackets ps (complete b draws res0 res1 s) := rfl

theorem execConfigure_sendPackets (fs : F64) (osr : Int) (ps : List Packet) (s : State) :
    execConfigure fs osr (sendPackets ps s) = mapNext (sendPackets ps) (execConfigure fs osr s) := by
  rcases execConfigure_cases fs osr s with ⟨e, hc, h⟩ | ⟨hc, h⟩ <;> rw [h]
  · exact execConfigure_error hc
  · exact execConfigure_ok hc

theorem execInitRun_sendPackets (ratio : Int) (fc mas fsens : F64) (ps : List Packet) (s : State) :
    execInitRun ratio fc mas fsens (sendPackets ps s)
      = mapNext (sendPackets ps) (execInitRun ratio fc mas fsens s) := by
  rcases execInitRun_cases ratio fc mas fsens s with ⟨e, hc, h⟩ | ⟨d, hc, h⟩ <;> rw [h]
  · exact execInitRun_error hc
  · exact execInitRun_ok mas fsens hc

theorem runSample_sendPackets (x : F64) (ps : List Packet) (s : State) :
    runSample x (sendPackets ps s) = mapNext (sendPackets ps) (runSample x s) := by
  rcases runSample_cases x s with ⟨hlo, h⟩ | ⟨hlo, hdl, h⟩ | ⟨hlo, hdl, h⟩ <;> rw [h]
  · exact if_pos hlo
  · exact (if_neg hlo.not_ge).trans (if_pos hdl)
  · exact (if_neg hlo.not_ge).trans (if_neg hdl.not_ge)

theorem execProcessSample_sendPackets (x : F64) (ps : List Packet) (s : State) :
    execProcessSample x (sendPackets ps s) = mapNext (sendPackets ps) (execProcessSample x s) := by
  simp only [execProcessSample, sendPackets_block, raise_sendPackets, runSample_sendPackets]
  cases s.block.state <;> rfl

theorem exec_sendPackets (i : Instr) (ps : List Packet) (s : State) :
    exec i (sendPackets ps s) = mapNext (sendPackets ps) (exec i s) := by
  cases i with
  | configure fs osr => exact execConfigure_sendPackets fs osr ps s
  | initRun ratio fc mas fsens => exact execInitRun_sendPackets ratio fc mas fsens ps s
  | processSample x => exact execProcessSample_sendPackets x ps s

/-- Serving a packet neither reads nor disturbs what is still to be sent. -/
theorem servePacket_sendPackets (p : Packet) (ps : List Packet) (s : State) :
    servePacket p (sendPackets ps s) = mapNext (sendPackets ps) (servePacket p s) := by
  cases h : decode p with
  | command i => rw [servePacket_of_command h, servePacket_of_command h, exec_sendPackets]
  | illegal c => rw [servePacket_of_illegal h, servePacket_of_illegal h, raise_sendPackets, mapNext_next]

/-- The first step of a machine that has been sent packets serves the first of them. -/
theorem step_sendPackets_cons (p : Packet) (ps : List Packet) (s : State) :
    step (sendPackets (p :: ps) s) = mapNext (sendPackets ps) (servePacket p s) :=
  (step_of_command rfl).trans (servePacket_sendPackets p ps s)

/-- Serving a packet that stops the machine. -/
theorem runPackets_of_fault {p : Packet} {s : State} {r : Fault} (ps : List Packet)
    (h : servePacket p s = .fault r) : runPackets (p :: ps) s = .fault r := by
  simp only [runPackets, h]

theorem runPackets_of_refused {p : Packet} {s : State} {r : Refusal} (ps : List Packet)
    (h : servePacket p s = .refused r) : runPackets (p :: ps) s = .refused r := by
  simp only [runPackets, h]

/-- The machine performs the packets it is sent by serving them one after another. -/
theorem run_sendPackets (ps : List Packet) (s : State) :
    core.run ps.length (sendPackets ps s) = runPackets ps s := by
  induction ps generalizing s with
  | nil => rfl
  | cons p ps ih =>
    have hstep := step_sendPackets_cons p ps s
    cases hp : servePacket p s with
    | next t =>
      rw [hp, mapNext_next] at hstep
      rw [runPackets_cons ps hp, List.length_cons, core_run_of_next hstep, ih]
    | fault r =>
      rw [hp, mapNext_fault] at hstep
      exact (core_run_of_fault hstep).trans (runPackets_of_fault ps hp).symm
    | refused r =>
      rw [hp, mapNext_refused] at hstep
      exact (core_run_of_refused hstep).trans (runPackets_of_refused ps hp).symm

/-- Settles O38, by induction on the packets. -/
theorem runOfSentPacketsIsTheirMeanings : Obligations.RunOfSentPacketsIsTheirMeanings := run_sendPackets

end Sys2Proof.Machine

/-! ## Noninterference: the sign and payload of a NaN never steer the block (R10, R18, R176) -/

namespace Sys2Proof.Machine

/-! ### Values up to the payload of a NaN -/

@[simp] theorem SameF.refl (a : F64) : SameF a a := .inl rfl

theorem SameF.of_isNaN {a b : F64} (ha : isNaN a = true) (hb : isNaN b = true) : SameF a b := .inr ⟨ha, hb⟩

/-- A Boolean function that is constant on NaNs does not see a payload. -/
theorem SameF.congr_of_nan {a b : F64} {f : F64 → Bool} {c : Bool} (h : SameF a b)
    (hf : ∀ x, isNaN x = true → f x = c) : f a = f b := by
  rcases h with rfl | ⟨ha, hb⟩
  · rfl
  · rw [hf a ha, hf b hb]

theorem SameF.isNaN_eq {a b : F64} (h : SameF a b) : isNaN a = isNaN b := h.congr_of_nan fun _ => id

theorem SameF.fgt_eq {a b : F64} (h : SameF a b) (c : F64) : fgt a c = fgt b c :=
  h.congr_of_nan (f := (fgt · c)) (c := false) fun x hx => by simp only [fgt, hx, Bool.not_true, Bool.false_and]

theorem SameF.feq_eq {a b : F64} (h : SameF a b) (c : F64) : feq a c = feq b c :=
  h.congr_of_nan (f := (feq · c)) (c := false) fun x hx => by simp only [feq, hx, Bool.not_true, Bool.false_and]

/-- Whether a value is a given one that is not a NaN does not depend on a payload. -/
theorem SameF.eq_iff {a b c : F64} (h : SameF a b) (hc : isNaN c = false) : a = c ↔ b = c := by
  rcases h with rfl | ⟨ha, hb⟩
  · rfl
  · constructor <;> rintro rfl <;> simp_all

theorem SameF.fabs {a b : F64} (h : SameF a b) : SameF (fabs a) (fabs b) := by
  rcases h with rfl | ⟨ha, hb⟩
  · exact .refl _
  · exact .of_isNaN (by simpa using ha) (by simpa using hb)

/-- An operation that answers a draw for every NaN operand keeps sameness, whatever the draw numbers: `g` is the
operation apart from its draws. -/
theorem SameF.lift₂ {op : Nat → F64 → F64 → F64} {g : F64 → F64 → Option F64}
    (hg : ∀ n a b, op n a b = (g a b).getD (someNaN n))
    (hnan : ∀ n {a b}, isNaN a = true ∨ isNaN b = true → op n a b = someNaN n)
    {a a' b b' : F64} (ha : SameF a a') (hb : SameF b b') (n m : Nat) : SameF (op n a b) (op m a' b') := by
  by_cases h : isNaN a = true ∨ isNaN b = true
  · rw [hnan n h, hnan m (ha.isNaN_eq ▸ hb.isNaN_eq ▸ h)]
    exact .of_isNaN (isNaN_someNaN n) (isNaN_someNaN m)
  · obtain rfl : a = a' := ha.resolve_right fun h' => h (.inl h'.1)
    obtain rfl : b = b' := hb.resolve_right fun h' => h (.inr h'.1)
    rw [hg, hg]
    cases g a b with
    | none => exact .of_isNaN (isNaN_someNaN n) (isNaN_someNaN m)
    | some v => exact .refl v

section
variable {a a' b b' : F64} (ha : SameF a a') (hb : SameF b b') (n m : Nat)
include ha hb

theorem SameF.fadd : SameF (fadd ieeeArith n a b) (fadd ieeeArith m a' b') :=
  .lift₂ fadd_eq (fun n => fadd_of_nan n) ha hb n m

theorem SameF.fsub : SameF (fsub ieeeArith n a b) (fsub ieeeArith m a' b') :=
  .lift₂ (g := fun a b => ieeeAdd a (fneg b)) fsub_eq (fun n => fsub_of_nan n) ha hb n m

theorem SameF.fmul : SameF (fmul ieeeArith n a b) (fmul ieeeArith m a' b') :=
  .lift₂ fmul_eq (fun n => fmul_of_nan n) ha hb n m

theorem SameF.fdiv : SameF (fdiv ieeeArith n a b) (fdiv ieeeArith m a' b') :=
  .lift₂ fdiv_eq (fun n => fdiv_of_nan n) ha hb n m

end

/-! ### Filters, buffers and blocks up to the payload of a NaN -/

@[simp] theorem SameFilter.refl (f : Filter) : SameFilter f f := ⟨.refl _, .refl _⟩

@[simp] theorem SameMemory.refl (m : Memory) : SameMemory m m := List.forall₂_same.mpr fun _ _ => ⟨rfl, .refl _⟩

theorem SameMemory.read {m k : Memory} (h : SameMemory m k) (j : Nat) : SameF (m.read j) (k.read j) := by
  induction h with
  | nil => exact .refl _
  | @cons c d m k hcd _ ih =>
    rw [Memory.read_cons, Memory.read_cons, hcd.1]
    split
    · exact hcd.2
    · exact ih

theorem SameMemory.write {m k : Memory} {v w : F64} (h : SameMemory m k) (j : Nat) (hv : SameF v w) :
    SameMemory (m.write j v) (k.write j w) := by
  have h0 : v = posZero ↔ w = posZero := hv.eq_iff (by decide)
  induction h with
  | nil =>
    simp only [Memory.write, h0]
    split
    · exact .refl _
    · exact .cons ⟨rfl, hv⟩ .nil
  | @cons c d m k hcd hmk ih =>
    obtain ⟨⟨i, a⟩, i', b⟩ := c, d
    obtain ⟨rfl, hab⟩ : i = i' ∧ SameF a b := hcd
    have hhead : SameMemory ((i, a) :: m) ((i, b) :: k) := .cons ⟨rfl, hab⟩ hmk
    simp only [Memory.write, h0]
    split_ifs
    · exact hhead
    · exact .cons ⟨rfl, hv⟩ hhead
    · exact hmk
    · exact .cons ⟨rfl, hv⟩ hmk
    · exact .cons ⟨rfl, hab⟩ ih

@[simp] theorem SameBlock.refl (b : Block) : SameBlock b b := by simp [SameBlock]

section
variable {b c : Block} (h : SameBlock b c)
include h

theorem SameBlock.state : b.state = c.state := h.1

theorem SameBlock.fs : SameF b.fs c.fs := h.2.1

/-- The registers that say whether a sample's table and delay-line accesses are in range. -/
theorem SameBlock.indices :
    b.period = c.period ∧ b.delay = c.delay ∧ b.loIdx = c.loIdx ∧ b.dlyIdx = c.dlyIdx := by
  obtain ⟨-, -, -, -, hper, -, -, -, -, -, hdel, -, hlo, hdly, -⟩ := h
  exact ⟨hper, hdel, hlo, hdly⟩

theorem SameBlock.fOut : SameFilter b.fOut c.fOut := by
  obtain ⟨-, -, -, -, -, -, -, -, -, -, -, -, -, -, -, -, -, -, hfOut⟩ := h
  exact hfOut

end

theorem SameState.block {s t : State} (h : SameState s t) : SameBlock s.block t.block := h.1

theorem SameState.params {s t : State} (h : SameState s t) : s.params = t.params := h.2.1

/-! ### The operations of the three commands, with the default primitives -/

section
variable {p : Params} (hp : p.primitives = .binary64) (n m : Nat)
include hp

theorem SameFilter.iirProcess {f g : Filter} {x y : F64} (h : SameFilter f g) (hx : SameF x y) :
    SameFilter (iirProcess p n f x) (iirProcess p m g y) := by
  simp only [SameFilter, iirProcess_bufIn, iirProcess_bufOut, iirAcc, arithOf_binary64 hp]
  exact ⟨hx.fmul (.refl _) _ _,
    (((hx.fmul (.refl _) _ _).fadd h.1 _ _).fsub (h.2.fmul (.refl _) _ _) _ _)⟩

theorem SameF.discriminate {i i' q q' iD iD' qD qD' : F64} (hi : SameF i i') (hq : SameF q q') (hiD : SameF iD iD')
    (hqD : SameF qD qD') : SameF (discriminate p n i q iD qD) (discriminate p m i' q' iD' qD') := by
  simp only [Machine.discriminate, arithOf_binary64 hp]
  exact (hi.fmul hqD _ _).fsub (hq.fmul hiD _ _) _ _

theorem sameF_configureFlo (fs : F64) (osr : Int) :
    SameF (configureFlo p n fs osr) (configureFlo p m fs osr) := by
  simp only [configureFlo, arithOf_binary64 hp]
  exact SameF.fdiv (.refl _) (.refl _) _ _

theorem configureCheck_same (fs : F64) (osr : Int) : configureCheck p n fs osr = configureCheck p m fs osr := by
  simp only [configureCheck, (sameF_configureFlo hp n m fs osr).fgt_eq]

theorem sameF_phaseDeviation {fs fs' : F64} (hfs : SameF fs fs') (d : Nat) (mas fsens : F64) :
    SameF (phaseDeviation p n d fs mas fsens) (phaseDeviation p m d fs' mas fsens) := by
  simp only [phaseDeviation, arithOf_binary64 hp]
  exact ((SameF.fmul (.refl _) (SameF.fdiv (.refl _) hfs _ _) _ _).fmul (.refl _) _ _)

theorem SameBlock.delayQuotient {b c : Block} (h : SameBlock b c) (ratio : Int) (fc : F64) :
    SameF (delayQuotient p n b ratio fc) (delayQuotient p m c ratio fc) := by
  obtain ⟨-, hfs, -, hflo, -⟩ := h
  simp only [Machine.delayQuotient, arithOf_binary64 hp]
  exact (SameF.fmul (.refl _) hfs _ _).fdiv (SameF.fmul (.refl _) (hflo.fsub (.refl _) _ _).fabs _ _) _ _

/-- The checks of INIT_RUN see of the quotient only whether it is a NaN, and its value otherwise. -/
theorem SameBlock.resolveDelay_eq {b c : Block} (h : SameBlock b c) (ratio : Int) (fc : F64) :
    resolveDelay p n b ratio fc = resolveDelay p m c ratio fc := by
  have hq := h.delayQuotient hp n m ratio fc
  obtain ⟨hst, -, -, hflo, -⟩ := h
  simp only [resolveDelay, hst, hflo.feq_eq]
  rcases hq with hq | ⟨hb, hc⟩
  · rw [hq]
  · simp only [hb, hc, if_true]

theorem SameBlock.configureBlock {b c : Block} (fs : F64) (osr : Int) :
    SameBlock (configureBlock p n fs osr b) (configureBlock p m fs osr c) := by
  simp [SameBlock, sameF_configureFlo hp n m fs osr]

theorem SameBlock.samplePipeline {b c : Block} (h : SameBlock b c) (x : F64) :
    SameBlock (samplePipeline p n x b) (samplePipeline p m x c) := by
  obtain ⟨hst, hfs, hosr, hflo, hper, hqua, hdr, hfc, hmas, hfsens, hdel, hpd, hlo, hdly, hiBuf, hqBuf, hfI, hfQ,
    hfOut⟩ := h
  have hraw : SameF (mix p n x b b.loIdx).1 (mix p m x c b.loIdx).1 ∧
      SameF (mix p n x b b.loIdx).2 (mix p m x c b.loIdx).2 := by
    simp only [mix, loRead, hper, hqua, arithOf_binary64 hp]
    exact ⟨SameF.fmul (.refl _) (.refl _) _ _, SameF.fmul (.refl _) (.refl _) _ _⟩
  have hI := hfI.iirProcess hp (n + 2) (m + 2) hraw.1
  have hQ := hfQ.iirProcess hp (n + 7) (m + 7) hraw.2
  have hpolar := SameF.discriminate hp (n + 12) (m + 12) hI.2 hQ.2 (hiBuf.read b.dlyIdx) (hqBuf.read b.dlyIdx)
  have hOut := hfOut.iirProcess hp (n + 15) (m + 15) hpolar
  simp [SameBlock, dlRead, -iirProcess_bufOut, ← hlo, ← hdly, ← hper, ← hdel, hst, hfs, hosr, hflo, hqua, hdr, hfc,
    hmas, hfsens, hpd, hiBuf.write b.dlyIdx hI.2, hqBuf.write b.dlyIdx hQ.2, hI, hQ, hOut]

end

theorem SameBlock.initRunBlock {b c : Block} (h : SameBlock b c) (d : Nat) {pd pd' : F64} (hpd : SameF pd pd')
    (ratio : Int) (fc mas fsens : F64) :
    SameBlock (initRunBlock d pd ratio fc mas fsens b) (initRunBlock d pd' ratio fc mas fsens c) := by
  obtain ⟨-, hfs, hosr, hflo, hper, hqua, -⟩ := h
  simp [SameBlock, hfs, hosr, hflo, hper, hqua, hpd]

/-! ### Outcomes up to the payload of a NaN -/

/-- Two outcomes are the same exactly when they are of one kind and carry the same. -/
theorem SameOutcome.cases {o o' : Host.Outcome State Fault Refusal} (h : SameOutcome o o') :
    (∃ s t, o = .next s ∧ o' = .next t ∧ SameState s t) ∨
    (∃ r, o = .fault r ∧ o' = .fault r) ∨ (∃ r, o = .refused r ∧ o' = .refused r) := by
  cases o <;> cases o' <;> simp_all [SameOutcome]

theorem SameState.respond {s t : State} {r q : Response} (h : SameState s t) (hr : SameResponse r q) :
    SameState (respond r s) (respond q t) := by
  obtain ⟨hblock, hparams, hinputs, hresp⟩ := h
  exact ⟨hblock, hparams, hinputs, List.rel_append hresp (.cons hr .nil)⟩

theorem SameState.raise {s t : State} (h : SameState s t) (e : Err) : SameState (raise e s) (raise e t) := by
  refine h.respond ⟨?_, .refl _, .refl _⟩
  rw [h.block.state]

/-- Completions with the same block and the same result words, whatever draws they count off. -/
theorem SameState.complete {s t : State} (h : SameState s t) {b c : Block} (hb : SameBlock b c) {v v' w w' : Word64}
    (hv : SameF v v') (hw : SameF w w') (n m : Nat) : SameState (complete b n v w s) (complete c m v' w' t) := by
  obtain ⟨-, hparams, hinputs, hresp⟩ := h
  refine SameState.respond ⟨hb, hparams, hinputs, hresp⟩ ⟨?_, hv, hw⟩
  rw [okResponse_status, hb.state, okResponse_status]

/-! ### The commands, the step and the run -/

section
variable {s t : State} (hp : s.params.primitives = .binary64) (h : SameState s t)
include hp h

theorem SameState.execConfigure (fs : F64) (osr : Int) :
    SameOutcome (execConfigure fs osr s) (execConfigure fs osr t) := by
  have hcheck : configureCheck s.params s.nanDraws fs osr = configureCheck t.params t.nanDraws fs osr :=
    h.params ▸ configureCheck_same hp _ _ fs osr
  rcases execConfigure_cases fs osr s with ⟨e, hc, hs⟩ | ⟨hc, hs⟩ <;> rw [hs]
  · rw [execConfigure_error (hcheck ▸ hc)]
    exact h.raise e
  · rw [execConfigure_ok (hcheck ▸ hc)]
    exact h.complete (h.params ▸ SameBlock.configureBlock hp _ _ fs osr) (.refl _) (.refl _) _ _

theorem SameState.execInitRun (ratio : Int) (fc mas fsens : F64) :
    SameOutcome (execInitRun ratio fc mas fsens s) (execInitRun ratio fc mas fsens t) := by
  have hdelay : resolveDelay s.params s.nanDraws s.block ratio fc = resolveDelay t.params t.nanDraws t.block ratio fc :=
    h.params ▸ h.block.resolveDelay_eq hp _ _ ratio fc
  rcases execInitRun_cases ratio fc mas fsens s with ⟨e, hc, hs⟩ | ⟨d, hc, hs⟩ <;> rw [hs]
  · rw [execInitRun_error (hdelay ▸ hc)]
    exact h.raise e
  · have hpd := sameF_phaseDeviation hp (s.nanDraws + 4) (t.nanDraws + 4) h.block.fs d mas fsens
    rw [execInitRun_ok mas fsens (hdelay ▸ hc), ← h.params]
    exact h.complete (h.block.initRunBlock d hpd ratio fc mas fsens) (.refl _) hpd _ _

theorem SameState.runSample (x : F64) : SameOutcome (runSample x s) (runSample x t) := by
  have hb := h.block.samplePipeline hp s.nanDraws t.nanDraws x
  obtain ⟨hper, hdel, hlo, hdly⟩ := h.block.indices
  rw [Machine.runSample, Machine.runSample, ← hper, ← hlo, ← hdel, ← hdly, ← h.params]
  split_ifs
  · rfl
  · rfl
  · exact h.complete hb hb.fOut.2 (.refl _) _ _

theorem SameState.execProcessSample (x : F64) : SameOutcome (execProcessSample x s) (execProcessSample x t) := by
  rw [Machine.execProcessSample, Machine.execProcessSample, ← h.block.state]
  cases s.block.state with
  | unconfigured => exact h.raise _
  | configured => exact h.raise _
  | running => exact h.runSample hp x

theorem SameState.exec (i : Instr) : SameOutcome (exec i s) (exec i t) := by
  cases i with
  | configure fs osr => exact h.execConfigure hp fs osr
  | initRun ratio fc mas fsens => exact h.execInitRun hp ratio fc mas fsens
  | processSample x => exact h.execProcessSample hp x

theorem SameState.servePacket (p : Packet) : SameOutcome (servePacket p s) (servePacket p t) := by
  cases hd : decode p with
  | command i =>
    rw [servePacket_of_command hd, servePacket_of_command hd]
    exact h.exec hp i
  | illegal c =>
    rw [servePacket_of_illegal hd, servePacket_of_illegal hd]
    exact h.raise _

theorem SameState.step : SameOutcome (step s) (step t) := by
  obtain ⟨hblock, hparams, hinputs, hresp⟩ := id h
  rw [Machine.step, Machine.step, serve, serve, ← hinputs]
  cases s.inputs with
  | nil => exact h
  | cons e rest =>
    have hrest : SameState { s with inputs := rest } { t with inputs := rest } := ⟨hblock, hparams, rfl, hresp⟩
    cases e with
    | command p => exact SameState.servePacket (s := { s with inputs := rest }) hp hrest p
    | reset => exact ⟨.refl _, hparams, rfl, hresp⟩
    | resetDuring p => exact ⟨.refl _, hparams, rfl, hresp⟩

end

theorem SameState.run (k : Nat) {s t : State} (hp : s.params.primitives = .binary64) (h : SameState s t) :
    SameOutcome (core.run k s) (core.run k t) := by
  induction k generalizing s t with
  | zero => exact h
  | succ k ih =>
    rcases (h.step hp).cases with ⟨s', t', hs, ht, h'⟩ | ⟨r, hs, ht⟩ | ⟨r, hs, ht⟩
    · rw [core_run_of_next hs, core_run_of_next ht]
      exact ih (by rw [step_params hs, hp]) h'
    · rw [core_run_of_fault hs, core_run_of_fault ht]
      rfl
    · rw [core_run_of_refused hs, core_run_of_refused ht]
      rfl

/-- Settles O35, by induction on the steps: each operation of the block answers a draw for every NaN operand, and
each check reads a NaN in one way, so sameness up to payloads is kept by every step. -/
theorem naNPayloadsNeverSteerTheBlock : Obligations.NaNPayloadsNeverSteerTheBlock := fun k _ _ => SameState.run k

end Sys2Proof.Machine

/-! ## Rounding is to nearest, ties to even (R8, R13) -/

namespace Sys2Proof.Machine

/-! ### Rounding a quotient to a whole number -/

/-- A rounded quotient is at most half away from the quotient, on either side, and even at exactly half. -/
theorem rne_half (n : Nat) {d : Nat} (hd : 0 < d) :
    2 * n ≤ 2 * (d * rne n d) + d ∧ 2 * (d * rne n d) ≤ 2 * n + d ∧
    (2 * n = 2 * (d * rne n d) + d ∨ 2 * (d * rne n d) = 2 * n + d → rne n d % 2 = 0) := by
  have hdiv := Nat.div_add_mod n d
  have hmod := Nat.mod_lt n hd
  rcases rne_cases n d with ⟨h, hlow⟩ | ⟨h, hhigh⟩ <;> rw [h]
  · omega
  · rw [Nat.mul_succ]
    omega

/-- Settles O51: the rounded quotient is within half of the quotient by `scale`. -/
theorem roundHalfEvenIsNearest : Obligations.RoundHalfEvenIsNearest := by
  refine ⟨fun q _ => ?_, by decide +kernel⟩
  obtain ⟨hlow, hhigh, htie⟩ := rne_half (unitsOf (magBits q)) scale_pos
  have hcast : ∀ r : Nat, ((scale * r : Nat) : Int) = r * (scale : Int) := fun r => by push_cast; ring
  have hr := hcast (rne (unitsOf (magBits q)) scale)
  unfold roundHalfEven signedUnits
  split
  · rw [Int.neg_mul, ← hr]
    omega
  · rw [← hr]
    omega

/-! ### The size of a magnitude and of its neighbours -/

/-- The size of the magnitude with exponent `e` and significand `r`, subnormals included. -/
theorem unitsOf_scaled {e r : Nat} (hlo : e = 0 ∨ 2 ^ 52 ≤ r) (hhi : r ≤ 2 ^ 53) :
    unitsOf (e * 2 ^ 52 + r) = r * 2 ^ e := by
  rcases hlo with rfl | hlo
  · simpa using unitsOf_small hhi
  · exact unitsOf_parts hlo hhi

/-- The next magnitude is at least a unit in the last place larger. -/
theorem unitsOf_scaled_succ_le {e r : Nat} (hlo : e = 0 ∨ 2 ^ 52 ≤ r) (hhi : r ≤ 2 ^ 53) :
    r * 2 ^ e + 2 ^ e ≤ unitsOf (e * 2 ^ 52 + r + 1) := by
  rcases Nat.lt_or_eq_of_le hhi with hlt | rfl
  · rw [Nat.add_assoc, unitsOf_scaled (by omega) hlt, Nat.succ_mul]
  · rw [show e * 2 ^ 52 + 2 ^ 53 + 1 = (e + 1) * 2 ^ 52 + (2 ^ 52 + 1) by ring, unitsOf_scaled (by omega) (by omega),
      Nat.pow_succ]
    omega

/-- Every smaller magnitude is at least a unit in the last place smaller, but for the carry into a new exponent. -/
theorem unitsOf_add_le_scaled {e r m : Nat} (hlo : e = 0 ∨ 2 ^ 52 < r) (hhi : r ≤ 2 ^ 53)
    (hm : m < e * 2 ^ 52 + r) : unitsOf m + 2 ^ e ≤ r * 2 ^ e := by
  obtain ⟨r, rfl⟩ : ∃ k, r = k + 1 := ⟨r - 1, by omega⟩
  rw [Nat.succ_mul, ← unitsOf_scaled (by omega) (by omega : r ≤ 2 ^ 53)]
  exact Nat.add_le_add_right (unitsOf_strictMono.monotone (by omega)) _

/-! ### Rounding a size to a magnitude, before overflow -/

/-- The magnitude `roundMag` rounds to when no exponent is too great. -/
def nearestMag (n d : Nat) : Nat :=
  (Nat.log2 (n / d) - 52) * 2 ^ 52 + rne n (d * 2 ^ (Nat.log2 (n / d) - 52))

theorem roundMag_eq_min (n d : Nat) : roundMag n d = min (nearestMag n d) infMag := by
  unfold roundMag nearestMag
  rfl

/-- The exponent of `nearestMag` is that of a subnormal, or the significand has its hidden bit. -/
theorem nearestMag_parts (n : Nat) {d : Nat} (hd : 0 < d) :
    ∃ e, nearestMag n d = e * 2 ^ 52 + rne n (d * 2 ^ e) ∧ rne n (d * 2 ^ e) ≤ 2 ^ 53 ∧
      (e = 0 ∨ 2 ^ 52 ≤ rne n (d * 2 ^ e) ∧ d * (2 ^ 52 * 2 ^ e) ≤ n) := by
  generalize he : Nat.log2 (n / d) - 52 = e
  have hpos : 0 < 2 ^ e := Nat.two_pow_pos e
  refine ⟨e, by rw [nearestMag, he], ?_, ?_⟩
  · have hlt : n / d < 2 ^ 53 * 2 ^ e := by
      rw [← Nat.pow_add]
      exact Nat.lt_of_lt_of_le Nat.lt_log2_self (Nat.pow_le_pow_right (by decide) (by omega))
    have hquot : n / (d * 2 ^ e) < 2 ^ 53 := by
      rw [← Nat.div_div_eq_div_mul]
      exact (Nat.div_lt_iff_lt_mul hpos).mpr hlt
    exact (rne_le _ _).trans hquot
  · refine or_iff_not_imp_left.mpr fun he0 => ?_
    have hne : n / d ≠ 0 := by
      rintro h
      rw [h, Nat.log2_zero] at he
      omega
    have hle : 2 ^ 52 * 2 ^ e ≤ n / d := by
      rw [← Nat.pow_add, show 52 + e = Nat.log2 (n / d) by omega]
      exact Nat.log2_self_le hne
    have hmul : d * (2 ^ 52 * 2 ^ e) ≤ n := by
      rw [Nat.mul_comm]
      exact (Nat.le_div_iff_mul_le hd).mp hle
    refine ⟨((Nat.le_div_iff_mul_le (Nat.mul_pos hd hpos)).mpr ?_).trans (le_rne _ _), hmul⟩
    rw [← Nat.mul_assoc, Nat.mul_comm _ d, Nat.mul_assoc]
    exact hmul

/-- The rounded size is not above the middle between the magnitude and any greater one. -/
theorem nearestMag_of_lt (n : Nat) {d m : Nat} (hd : 0 < d) (hm : nearestMag n d < m) :
    2 * n ≤ d * unitsOf (nearestMag n d) + d * unitsOf m ∧
    (2 * n = d * unitsOf (nearestMag n d) + d * unitsOf m → nearestMag n d % 2 = 0) := by
  obtain ⟨e, hparts, hhi, hlo⟩ := nearestMag_parts n hd
  obtain ⟨hle, -, htie⟩ := rne_half n (Nat.mul_pos hd (Nat.two_pow_pos e))
  rw [hparts] at hm ⊢
  generalize rne n (d * 2 ^ e) = r at *
  have hlo' : e = 0 ∨ 2 ^ 52 ≤ r := hlo.imp_right And.left
  have hnext : d * (r * 2 ^ e + 2 ^ e) ≤ d * unitsOf m :=
    Nat.mul_le_mul_left d ((unitsOf_scaled_succ_le hlo' hhi).trans (unitsOf_strictMono.monotone hm))
  rw [Nat.mul_add] at hnext
  rw [show d * 2 ^ e * r = d * (r * 2 ^ e) by ring] at hle htie
  rw [unitsOf_scaled hlo' hhi]
  omega

/-- The rounded size is not below the middle between the magnitude and any smaller one. -/
theorem nearestMag_of_gt (n : Nat) {d m : Nat} (hd : 0 < d) (hm : m < nearestMag n d) :
    d * unitsOf (nearestMag n d) + d * unitsOf m ≤ 2 * n ∧
    (2 * n = d * unitsOf (nearestMag n d) + d * unitsOf m → nearestMag n d % 2 = 0) := by
  obtain ⟨e, hparts, hhi, hlo⟩ := nearestMag_parts n hd
  obtain ⟨-, hle, htie⟩ := rne_half n (Nat.mul_pos hd (Nat.two_pow_pos e))
  have hmono := Nat.mul_lt_mul_of_pos_left (unitsOf_strictMono hm) hd
  rw [hparts] at hm hmono ⊢
  generalize rne n (d * 2 ^ e) = r at *
  have hlo' : e = 0 ∨ 2 ^ 52 ≤ r := hlo.imp_right And.left
  rw [unitsOf_scaled hlo' hhi] at hmono ⊢
  by_cases hcarry : e = 0 ∨ 2 ^ 52 < r
  · have hprev := Nat.mul_le_mul_left d (unitsOf_add_le_scaled hcarry hhi hm)
    rw [Nat.mul_add] at hprev
    rw [show d * 2 ^ e * r = d * (r * 2 ^ e) by ring] at hle htie
    omega
  · obtain rfl : r = 2 ^ 52 := by omega
    have hn : d * (2 ^ 52 * 2 ^ e) ≤ n := (hlo.resolve_left fun h => hcarry (.inl h)).2
    omega

/-! ### Nearest, and the threshold of overflow -/

/-- Before overflow: against any other magnitude, the middle between the two decides. -/
theorem nearestEven_nearestMag (n : Nat) {d : Nat} (hd : 0 < d) : NearestEven n d (nearestMag n d) := by
  intro m _ hne
  simp only [← Nat.cast_mul]
  rcases Nat.lt_or_gt_of_ne hne with hlt | hgt
  · obtain ⟨hle, htie⟩ := nearestMag_of_gt n hd hlt
    have := Nat.mul_lt_mul_of_pos_left (unitsOf_strictMono hlt) hd
    omega
  · obtain ⟨hle, htie⟩ := nearestMag_of_lt n hd hgt
    have := Nat.mul_lt_mul_of_pos_left (unitsOf_strictMono hgt) hd
    omega

/-- Half a unit in the last place above the greatest finite size, in the middle between it and the next. -/
theorem unitsOf_overflow_middle :
    unitsOf infMag + unitsOf (infMag - 1) = 2 * ((2 ^ 54 - 1) * 2 ^ 2044) := by
  have hinf : unitsOf infMag = 2 ^ 53 * 2 ^ (2044 + 1) :=
    unitsOf_scaled (e := 2044 + 1) (r := 2 ^ 53) (.inr (by decide)) le_rfl
  have hmax : unitsOf (infMag - 1) = (2 ^ 53 - 1) * 2 ^ (2044 + 1) :=
    unitsOf_scaled (e := 2044 + 1) (r := 2 ^ 53 - 1) (.inr (by decide)) (by decide)
  rw [hinf, hmax, pow_succ 2 2044]
  generalize 2 ^ 2044 = u
  omega

theorem infMag_le_nearestMag_iff (n : Nat) {d : Nat} (hd : 0 < d) :
    infMag ≤ nearestMag n d ↔ d * ((2 ^ 54 - 1) * 2 ^ 2044) ≤ n := by
  have hmid := congrArg (d * ·) unitsOf_overflow_middle
  simp only [Nat.mul_add, Nat.mul_left_comm d 2] at hmid
  generalize d * ((2 ^ 54 - 1) * 2 ^ 2044) = T at *
  constructor
  · intro hle
    have hn := (nearestMag_of_gt n hd (m := infMag - 1) (Nat.lt_of_lt_of_le (by decide) hle)).1
    have := Nat.mul_le_mul_left d (unitsOf_strictMono.monotone hle)
    omega
  · intro hT
    by_contra hlt
    obtain ⟨hn, htie⟩ := nearestMag_of_lt n hd (Nat.lt_of_not_le hlt)
    have hmax : nearestMag n d ≤ infMag - 1 := by omega
    rcases Nat.eq_or_lt_of_le hmax with heq | hlt'
    · rw [heq] at hn htie
      have heven : (infMag - 1) % 2 = 0 := htie (by omega)
      exact absurd heven (by decide)
    · have := Nat.mul_lt_mul_of_pos_left (unitsOf_strictMono hlt') hd
      omega

/-- Settles O49: below infinity `roundMag` is `nearestMag`, and it is infinity where that reaches it. -/
theorem roundingIsToNearestEven : Obligations.RoundingIsToNearestEven := by
  intro n d hd
  rw [roundMag_eq_min, ← infMag_le_nearestMag_iff n hd, min_eq_right_iff]
  refine ⟨fun hlt => ?_, Iff.rfl⟩
  rw [min_eq_left (by omega)]
  exact nearestEven_nearestMag n hd

end Sys2Proof.Machine

/-! ## Numbers: signed sizes, comparisons, and the integers that convert exactly (R7, R14, R15) -/

namespace Sys2Proof.Machine

/-! ### The signed size of a value -/

@[simp] theorem natAbs_signedUnits (a : F64) : (signedUnits a).natAbs = unitsOf (magBits a) := by
  unfold signedUnits
  split <;> simp

@[simp] theorem signedUnits_fneg (a : F64) : signedUnits (fneg a) = -signedUnits a := by
  simp only [signedUnits, signBit_fneg, magBits_fneg]
  cases signBit a <;> simp

theorem signedUnits_fabs (a : F64) : signedUnits (fabs a) = ((signedUnits a).natAbs : Int) := by
  rw [natAbs_signedUnits, signedUnits, signBit_fabs, if_neg Bool.false_ne_true, magBits_fabs]

theorem signedUnits_pack {m : Nat} (neg : Bool) (h : m < 2 ^ 63) :
    signedUnits (pack neg m) = if neg then -(unitsOf m : Int) else (unitsOf m : Int) := by
  simp only [signedUnits, signBit_pack neg h, magBits_pack neg h]

theorem signedUnits_posOne : signedUnits posOne = (scale : Int) := by
  rw [signedUnits, if_neg (by decide), unitsOf_one]

theorem unitsOf_eq_zero {m : Nat} : unitsOf m = 0 ↔ m = 0 := by
  simpa using unitsOf_inj (a := m) (b := 0)

/-! ### Comparisons -/

/-- The order of keys is the order of signed sizes. -/
theorem orderKey_lt_iff (a b : F64) : orderKey a < orderKey b ↔ signedUnits a < signedUnits b := by
  have ha := unitsOf_eq_zero (m := magBits a)
  have hb := unitsOf_eq_zero (m := magBits b)
  have hab := unitsOf_lt_iff (a := magBits a) (b := magBits b)
  have hba := unitsOf_lt_iff (a := magBits b) (b := magBits a)
  unfold orderKey signedUnits
  split <;> split <;> omega

theorem orderKey_eq_iff (a b : F64) : orderKey a = orderKey b ↔ signedUnits a = signedUnits b := by
  have hab := orderKey_lt_iff a b
  have hba := orderKey_lt_iff b a
  omega

theorem feq_iff {a b : F64} (ha : isNaN a = false) (hb : isNaN b = false) :
    feq a b = true ↔ orderKey a = orderKey b := by
  simp [feq, ha, hb]

theorem fgt_iff {a b : F64} (ha : isNaN a = false) (hb : isNaN b = false) :
    fgt a b = true ↔ orderKey b < orderKey a := by
  simp [fgt, ha, hb]

theorem feq_iff_of_finite {a b : F64} (ha : isFinite a = true) (hb : isFinite b = true) :
    feq a b = true ↔ signedUnits a = signedUnits b := by
  rw [feq_iff (isNaN_of_isFinite ha) (isNaN_of_isFinite hb), orderKey_eq_iff]

theorem fgt_iff_of_finite {a b : F64} (ha : isFinite a = true) (hb : isFinite b = true) :
    fgt a b = true ↔ signedUnits b < signedUnits a := by
  rw [fgt_iff (isNaN_of_isFinite ha) (isNaN_of_isFinite hb), orderKey_lt_iff]

/-- No comparison with a NaN holds. -/
theorem feq_of_nan {a b : F64} (h : isNaN a = true ∨ isNaN b = true) : feq a b = false := by
  rcases h with h | h <;> simp [feq, h]

theorem fgt_of_nan {a b : F64} (h : isNaN a = true ∨ isNaN b = true) : fgt a b = false := by
  rcases h with h | h <;> simp [fgt, h]

/-- The keys of finite values lie between those of the infinities. -/
theorem orderKey_of_finite {a : F64} (h : isFinite a = true) :
    orderKey (fneg posInf) < orderKey a ∧ orderKey a < orderKey posInf := by
  rw [isFinite_iff] at h
  rw [show orderKey (fneg posInf) = -(infMag : Int) by decide, show orderKey posInf = (infMag : Int) by decide]
  unfold orderKey
  split <;> omega

/-- A finite value against an infinity. -/
theorem compare_posInf_of_finite {a : F64} (h : isFinite a = true) :
    fgt posInf a = true ∧ fgt a (fneg posInf) = true ∧ fgt a posInf = false ∧ fgt (fneg posInf) a = false ∧
    feq a posInf = false ∧ feq a (fneg posInf) = false := by
  have ha := isNaN_of_isFinite h
  have hpos : isNaN posInf = false := by decide
  have hneg : isNaN (fneg posInf) = false := by decide
  obtain ⟨hlo, hhi⟩ := orderKey_of_finite h
  simp only [← Bool.not_eq_true, fgt_iff, feq_iff, ha, hpos, hneg]
  omega

/-! ### The fields of a word -/

/-- The exponent field is all ones in the infinities and the NaNs. -/
theorem exponent_eq_ones_iff (a : F64) : a.extractLsb' 52 11 = 0x7ff#11 ↔ infMag ≤ magBits a := by
  rw [← BitVec.toNat_inj, BitVec.extractLsb'_toNat, Nat.shiftRight_eq_div_pow]
  simp only [infMag, magBits, BitVec.toNat_ofNat]
  omega

theorem fraction_eq_zero_iff (a : F64) : a.extractLsb' 0 52 = 0#52 ↔ magBits a % 2 ^ 52 = 0 := by
  rw [← BitVec.toNat_inj, BitVec.extractLsb'_toNat, Nat.shiftRight_zero]
  simp only [magBits, BitVec.toNat_ofNat]
  omega

theorem isFinite_iff_exponent (a : F64) : isFinite a = true ↔ a.extractLsb' 52 11 ≠ 0x7ff#11 := by
  rw [isFinite_iff, Ne, exponent_eq_ones_iff, Nat.not_le]

theorem isNaN_iff_fields (a : F64) :
    isNaN a = true ↔ a.extractLsb' 52 11 = 0x7ff#11 ∧ a.extractLsb' 0 52 ≠ 0#52 := by
  have hlt := magBits_lt a
  rw [isNaN_iff, exponent_eq_ones_iff, Ne, fraction_eq_zero_iff, infMag]
  omega

/-- Settles O50: keys order the values, and the fields tell the classes. -/
theorem comparisonsAreNumeric : Obligations.ComparisonsAreNumeric :=
  ⟨fun _ _ ha hb => ⟨feq_iff_of_finite ha hb, fgt_iff_of_finite ha hb⟩, fun _ => compare_posInf_of_finite,
    fun _ _ h => ⟨feq_of_nan h, fgt_of_nan h⟩, by decide, by decide, by decide, by decide, by decide, by decide,
    by decide, fun a => ⟨isFinite_iff_exponent a, isNaN_iff_fields a⟩⟩

/-! ### Valid parameter sets (R6) -/

/-- `|a| < 1` as a comparison is `|a| < 1` as a number. -/
theorem fgt_posOne_fabs_iff {a : F64} (h : isFinite a = true) :
    fgt posOne (fabs a) = true ↔ (signedUnits a).natAbs < scale := by
  rw [fgt_iff_of_finite (by decide) (by rwa [isFinite_fabs]), signedUnits_fabs, signedUnits_posOne, Int.ofNat_lt]

theorem validParams_iff (p : Params) :
    validParams p = true ↔ 1 ≤ p.maxDelay ∧ p.maxDelay ≤ 2 ^ 31 ∧ isFinite p.b0 = true ∧ isFinite p.b1 = true ∧
      isFinite p.a1 = true ∧ (signedUnits p.a1).natAbs < scale := by
  simp only [validParams, Bool.and_eq_true, decide_eq_true_eq, and_assoc]
  exact and_congr_right' (and_congr_right' (and_congr_right' (and_congr_right' (and_congr_right
    fgt_posOne_fabs_iff))))

/-- Settles O37: `build` asks for a valid parameter set. -/
theorem onlyValidParametersBuildAnInstance : Obligations.OnlyValidParametersBuildAnInstance := by
  intro p
  rw [← validParams_iff]
  exact ⟨fun h => if_pos h, fun h => if_neg h⟩

/-! ### Integers that convert exactly (R14) -/

/-- A whole number up to `2^53` shifts to a significand with its hidden bit. -/
theorem exists_significand {k : Nat} (hpos : 0 < k) (hk : k ≤ 2 ^ 53) :
    ∃ j ≤ 52, 2 ^ 52 ≤ k * 2 ^ j ∧ k * 2 ^ j ≤ 2 ^ 53 := by
  rcases Nat.eq_or_lt_of_le hk with rfl | hlt
  · exact ⟨0, by decide, by decide, by decide⟩
  · have hl : Nat.log2 k < 53 := (Nat.log2_lt hpos.ne').mpr hlt
    have hshift : ∀ i, 2 ^ (52 + i) = 2 ^ (Nat.log2 k + i) * 2 ^ (52 - Nat.log2 k) := fun i => by
      rw [← Nat.pow_add]
      congr 1
      omega
    refine ⟨52 - Nat.log2 k, by omega, ?_, ?_⟩
    · rw [hshift 0]
      exact Nat.mul_le_mul_right _ (Nat.log2_self_le hpos.ne')
    · rw [hshift 1]
      exact Nat.mul_le_mul_right _ Nat.lt_log2_self.le

/-- A whole number up to `2^53` is the size of a finite magnitude. -/
theorem exists_unitsOf_eq_mul_scale {k : Nat} (hk : k ≤ 2 ^ 53) : ∃ m < infMag, unitsOf m = k * scale := by
  rcases Nat.eq_zero_or_pos k with rfl | hpos
  · exact ⟨0, by decide, by simp⟩
  · obtain ⟨j, hj, hlo, hhi⟩ := exists_significand hpos hk
    refine ⟨(1074 - j) * 2 ^ 52 + k * 2 ^ j, ?_, ?_⟩
    · rw [infMag]
      omega
    · have hscale : 2 ^ j * 2 ^ (1074 - j) = scale := by
        unfold scale
        exact pow_mul_pow_sub 2 (by omega)
      rw [unitsOf_parts hlo hhi, Nat.mul_assoc, hscale]

/-- An integer of at most `2^53` in size converts to a finite value of exactly its size. -/
theorem f64OfInt_exact {n : Int} (hn : n.natAbs ≤ 2 ^ 53) :
    isFinite (f64OfInt n) = true ∧ signedUnits (f64OfInt n) = n * (scale : Int) := by
  obtain ⟨m, hm, hu⟩ := exists_unitsOf_eq_mul_scale hn
  have hlt : m < 2 ^ 63 := hm.trans infMag_lt
  have hround : roundMag (n.natAbs * scale) 1 = m := by
    rw [← hu, ← Nat.mul_one (unitsOf m), roundMag_unitsOf hm.le one_pos]
  unfold f64OfInt
  rw [hround, signedUnits_pack _ hlt, isFinite_iff, magBits_pack _ hlt, hu]
  refine ⟨hm, ?_⟩
  rcases lt_or_ge n 0 with h | h
  · simp [h, abs_of_neg h]
  · simp [h.not_gt, abs_of_nonneg h]

/-- Settles O52: what the block converts is an `i32` or a delay of at most `2^31`. -/
theorem smallIntegersConvertExactly : Obligations.SmallIntegersConvertExactly := by
  refine ⟨fun n => f64OfInt_exact, fun w => ?_, fun p d hp hd => ?_⟩
  · have h := inI32_i32 w
    simp only [inI32, Bool.and_eq_true, decide_eq_true_eq] at h
    omega
  · have h := ((validParams_iff p).mp hp).2.1
    omega

end Sys2Proof.Machine

/-! ## The default primitives, class by class (R8) -/

namespace Sys2Proof.Machine

theorem signXor_eq_xor (a b : F64) : signXor a b = (signBit a ^^ signBit b) := congrFun₂ Bool.bne_eq_xor _ _

theorem isFinite_of_isZero {a : F64} (h : isZero a = true) : isFinite a = true := by
  rw [isFinite_iff, (isZero_iff a).mp h]
  decide

theorem isZero_of_isInf {a : F64} (h : isInf a = true) : isZero a = false := by
  rw [isZero, (isInf_iff a).mp h]
  decide

/-! ### Finite operands -/

theorem pack_zero (neg : Bool) : pack neg 0 = if neg = true then fneg posZero else posZero := by
  cases neg <;> decide

/-- The sum of finite values, with the sign of an exact zero written out. -/
theorem addFinite_eq (a b : F64) :
    addFinite a b =
      if signedUnits a + signedUnits b ≠ 0 then
        pack (decide (signedUnits a + signedUnits b < 0)) (roundMag (signedUnits a + signedUnits b).natAbs 1)
      else if signBit a = true ∧ signBit b = true then fneg posZero else posZero := by
  simp only [addFinite, ite_not, pack_zero, Bool.and_eq_true]

/-- A finite value that is not zero over a zero. -/
theorem fdiv_by_zero (n : Nat) {a b : F64} (ha : isFinite a = true) (hza : isZero a = false) (hb : isZero b = true) :
    fdiv ieeeArith n a b = pack (signXor a b) infMag := by
  have hfb := isFinite_of_isZero hb
  simp [fdiv_eq, ieeeDiv, isNaN_of_isFinite, isInf_of_isFinite, ha, hfb, hza, hb]

theorem fdiv_zero_zero (n : Nat) {a b : F64} (ha : isZero a = true) (hb : isZero b = true) :
    fdiv ieeeArith n a b = someNaN n := by
  have hfa := isFinite_of_isZero ha
  have hfb := isFinite_of_isZero hb
  simp [fdiv_eq, ieeeDiv, isNaN_of_isFinite, isInf_of_isFinite, hfa, hfb, ha, hb]

/-- Settles O48: a difference is the sum with the negated value, and sizes multiply and divide without signs. -/
theorem primitivesRoundTheExactResult : Obligations.PrimitivesRoundTheExactResult := by
  intro n a b ha hb
  simp only [natAbs_signedUnits, ← signXor_eq_xor]
  refine ⟨?_, ?_, fmul_of_finite n ha hb, fdiv_of_finite n ha hb, fdiv_by_zero n ha, fun hza hzb => ?_⟩
  · rw [fadd_of_finite n ha hb, addFinite_eq]
  · rw [fsub_of_finite n ha hb, addFinite_eq, signedUnits_fneg, signBit_fneg, ← sub_eq_add_neg]
    simp only [Bool.not_eq_true']
  · rw [fdiv_zero_zero n hza hzb, isNaN_someNaN]

/-! ### Infinities -/

section
variable (n : Nat) {a b : F64}

theorem fadd_inf_finite (ha : isInf a = true) (hb : isFinite b = true) : fadd ieeeArith n a b = a := by
  simp [fadd_eq, ieeeAdd, isNaN_of_isInf, isNaN_of_isFinite, isInf_of_isFinite, ha, hb]

theorem fadd_finite_inf (ha : isFinite a = true) (hb : isInf b = true) : fadd ieeeArith n a b = b := by
  simp [fadd_eq, ieeeAdd, isNaN_of_isInf, isNaN_of_isFinite, isInf_of_isFinite, ha, hb]

/-- Infinities of one sign add to that infinity. -/
theorem fadd_inf_inf_same (ha : isInf a = true) (hb : isInf b = true) (hs : signBit a = signBit b) :
    fadd ieeeArith n a b = a := by
  simp [fadd_eq, ieeeAdd, isNaN_of_isInf, ha, hb, hs]

/-- Opposite infinities have no sum. -/
theorem fadd_inf_inf_opposite (ha : isInf a = true) (hb : isInf b = true) (hs : signBit a ≠ signBit b) :
    fadd ieeeArith n a b = someNaN n := by
  simp [fadd_eq, ieeeAdd, isNaN_of_isInf, ha, hb, hs]

/-- A difference is the sum with the negated value, for every class of operands. -/
theorem fsub_eq_fadd_fneg (a b : F64) : fsub ieeeArith n a b = fadd ieeeArith n a (fneg b) := by
  rw [fsub_eq, fadd_eq]

theorem fdiv_inf_finite (ha : isInf a = true) (hb : isFinite b = true) :
    fdiv ieeeArith n a b = pack (signXor a b) infMag := by
  simp [fdiv_eq, ieeeDiv, isNaN_of_isInf, isNaN_of_isFinite, isInf_of_isFinite, ha, hb]

theorem fdiv_finite_inf (ha : isFinite a = true) (hb : isInf b = true) :
    fdiv ieeeArith n a b = pack (signXor a b) 0 := by
  simp [fdiv_eq, ieeeDiv, isNaN_of_isInf, isNaN_of_isFinite, isInf_of_isFinite, ha, hb]

theorem fdiv_inf_inf (ha : isInf a = true) (hb : isInf b = true) : fdiv ieeeArith n a b = someNaN n := by
  simp [fdiv_eq, ieeeDiv, isNaN_of_isInf, ha, hb]

/-- An infinity times a zero, in either order, has no product. -/
theorem fmul_inf_zero (h : isInf a = true ∧ isZero b = true ∨ isZero a = true ∧ isInf b = true) :
    fmul ieeeArith n a b = someNaN n := by
  rcases h with ⟨ha, hb⟩ | ⟨ha, hb⟩
  · simp [fmul_eq, ieeeMul, isNaN_of_isInf, isNaN_of_isFinite, isFinite_of_isZero, ha, hb]
  · simp [fmul_eq, ieeeMul, isNaN_of_isInf, isNaN_of_isFinite, isFinite_of_isZero, ha, hb]

/-- An infinity times a value that is neither a zero nor a NaN, in either order. -/
theorem fmul_inf (h : isInf a = true ∧ isNaN b = false ∧ isZero b = false ∨
    isNaN a = false ∧ isZero a = false ∧ isInf b = true) :
    fmul ieeeArith n a b = pack (signXor a b) infMag := by
  rcases h with ⟨ha, hnb, hzb⟩ | ⟨hna, hza, hb⟩
  · simp [fmul_eq, ieeeMul, isNaN_of_isInf, isZero_of_isInf, ha, hnb, hzb]
  · simp [fmul_eq, ieeeMul, isNaN_of_isInf, isZero_of_isInf, hb, hna, hza]

end

/-- Settles O55, one clause for each pair of classes. -/
theorem primitivesOnInfinitiesAndNaNs : Obligations.PrimitivesOnInfinitiesAndNaNs := by
  intro n a b
  simp only [← signXor_eq_xor, fsub_eq_fadd_fneg]
  refine ⟨fun h => ?_, fun ha hb => ?_, fun ha hb => ?_, fun ha hb => ⟨fun hs => ?_, fun hs => ?_, ?_⟩, fun h => ?_,
    fmul_inf n⟩
  · rw [fadd_of_nan n h, fadd_of_nan n (h.imp_right (isNaN_fneg b).trans), fmul_of_nan n h, fdiv_of_nan n h,
      isNaN_someNaN]
    exact ⟨rfl, rfl, rfl, rfl⟩
  · exact ⟨fadd_inf_finite n ha hb, fadd_inf_finite n ha ((isFinite_fneg b).trans hb), fdiv_inf_finite n ha hb⟩
  · exact ⟨fadd_finite_inf n ha hb, fadd_finite_inf n ha ((isInf_fneg b).trans hb), fdiv_finite_inf n ha hb⟩
  · rw [fadd_inf_inf_opposite n ha ((isInf_fneg b).trans hb) (by simp [hs]), isNaN_someNaN]
    exact ⟨fadd_inf_inf_same n ha hb hs, rfl⟩
  · rw [fadd_inf_inf_opposite n ha hb hs, isNaN_someNaN]
    exact ⟨rfl, fadd_inf_inf_same n ha ((isInf_fneg b).trans hb) (by simpa [Bool.eq_not] using hs)⟩
  · rw [fdiv_inf_inf n ha hb, isNaN_someNaN]
  · rw [fmul_inf_zero n h, isNaN_someNaN]

end Sys2Proof.Machine

/-! ## What a packet that is answered did, and its STATUS word (R16, R21, R76, R206) -/

namespace Sys2Proof.Machine

/-! ### Errors and completions -/

/-- From `s` the command completes in the given state: its checks pass, and it writes its block and its response. -/
inductive Completes (s : State) : Instr → State → Prop where
  | configure {fs : F64} {osr : Int} (hcheck : configureCheck s.params s.nanDraws fs osr = none) :
    Completes s (.configure fs osr) (complete (configureBlock s.params s.nanDraws fs osr s.block) 1 0#64 0#64 s)
  | initRun {ratio : Int} {fc mas fsens pd : F64} {d : Nat}
    (hdelay : resolveDelay s.params s.nanDraws s.block ratio fc = .ok d)
    (hpd : pd = phaseDeviation s.params (s.nanDraws + 4) d s.block.fs mas fsens) :
    Completes s (.initRun ratio fc mas fsens)
      (complete (initRunBlock d pd ratio fc mas fsens s.block) 7 (zext64 d) (bits64 pd) s)
  | processSample {x : F64} (hrun : s.block.state = .running) (hlo : s.block.loIdx < s.block.period)
    (hdly : s.block.dlyIdx < s.block.delay) :
    Completes s (.processSample x)
      (complete (samplePipeline s.params s.nanDraws x s.block) 20
        (bits64 (samplePipeline s.params s.nanDraws x s.block).fOut.bufOut) 0#64 s)

/-- A command that is answered raised an error or completed. -/
theorem exec_next_cases {i : Instr} {s t : State} (h : exec i s = .next t) :
    (∃ e, t = raise e s) ∨ Completes s i t := by
  cases i with
  | configure fs osr =>
    rcases execConfigure_cases fs osr s with ⟨e, -, h'⟩ | ⟨hc, h'⟩ <;> cases h.symm.trans h'
    · exact .inl ⟨e, rfl⟩
    · exact .inr (.configure hc)
  | initRun ratio fc mas fsens =>
    rcases execInitRun_cases ratio fc mas fsens s with ⟨e, -, h'⟩ | ⟨d, hd, h'⟩ <;> cases h.symm.trans h'
    · exact .inl ⟨e, rfl⟩
    · exact .inr (.initRun hd rfl)
  | processSample x =>
    rcases execProcessSample_cases x s with ⟨-, h'⟩ | ⟨-, h'⟩ | ⟨hrun, h'⟩
    · exact .inl ⟨_, Host.Outcome.next.inj (h.symm.trans h')⟩
    · exact .inl ⟨_, Host.Outcome.next.inj (h.symm.trans h')⟩
    · rcases runSample_cases x s with ⟨-, h''⟩ | ⟨-, -, h''⟩ | ⟨hlo, hdly, h''⟩ <;>
        cases h.symm.trans (h'.trans h'')
      exact .inr (.processSample hrun hlo hdly)

/-- A packet that is answered was answered by an error, or is a command that completed. -/
theorem servePacket_next_cases {p : Packet} {s t : State} (h : servePacket p s = .next t) :
    (∃ e, t = raise e s) ∨ ∃ i, decode p = .command i ∧ Completes s i t := by
  rcases servePacket_cases p s with ⟨i, hi, h'⟩ | ⟨c, -, h'⟩
  · exact (exec_next_cases (h'.symm.trans h)).imp_right fun hc => ⟨i, hi, hc⟩
  · exact .inl ⟨_, Host.Outcome.next.inj (h.symm.trans h')⟩

/-- A completion gives one response, the success of the lifecycle state it ends in. -/
theorem Completes.responses {i : Instr} {s t : State} (h : Completes s i t) :
    ∃ res0 res1, t.responses = s.responses ++ [okResponse t.block.state res0 res1] := by
  cases h <;> exact ⟨_, _, rfl⟩

/-! ### The STATUS word -/

@[simp] theorem okStatus_err (st : Lifecycle) : (okStatus st).extractLsb' 0 4 = 0#4 := statusWord_err _ _ _

/-- An error is never taken for a success (R77). -/
@[simp] theorem errStatus_err_ne_zero (e : Err) (st : Lifecycle) : (errStatus e st).extractLsb' 0 4 ≠ 0#4 := by
  rw [errStatus, statusWord_err]
  cases e.code <;> decide

@[simp] theorem lastIsError_raise (e : Err) (s : State) : lastIsError (raise e s) = true := by
  simp [lastIsError]

theorem Completes.lastIsError {i : Instr} {s t : State} (h : Completes s i t) : lastIsError t = false := by
  obtain ⟨res0, res1, hr⟩ := h.responses
  simp [Machine.lastIsError, hr]

/-! ### The lifecycle (R21) -/

/-- The two-bit field holds every lifecycle state, and none is the value 3. -/
theorem stateField_toNat (st : Lifecycle) :
    (BitVec.ofNat 2 (stateNumber st)).toNat = stateNumber st ∧ BitVec.ofNat 2 (stateNumber st) ≠ 3#2 := by
  cases st <;> decide

@[simp] theorem okStatus_state (st : Lifecycle) :
    (okStatus st).extractLsb' 8 2 = BitVec.ofNat 2 (stateNumber st) := statusWord_state _ _ _

@[simp] theorem errStatus_state (e : Err) (st : Lifecycle) :
    (errStatus e st).extractLsb' 8 2 = BitVec.ofNat 2 (stateNumber st) := statusWord_state _ _ _

/-- The response to a packet reports the lifecycle state the block is left in; either it is an error and the block
is as it was, or a command completed. -/
theorem servePacket_answer {p : Packet} {s t : State} {r : Response} (h : servePacket p s = .next t)
    (hr : t.responses = s.responses ++ [r]) :
    r.status.extractLsb' 8 2 = BitVec.ofNat 2 (stateNumber t.block.state) ∧
    ((r.status.extractLsb' 0 4 ≠ 0#4 ∧ t.block = s.block) ∨
      (r.status.extractLsb' 0 4 = 0#4 ∧ ∃ i, decode p = .command i ∧ Completes s i t)) := by
  rcases servePacket_next_cases h with ⟨e, rfl⟩ | ⟨i, hi, hc⟩
  · obtain rfl : errResponse e s.block.state = r := by simpa using hr
    exact ⟨errStatus_state e _, .inl ⟨errStatus_err_ne_zero e _, rfl⟩⟩
  · obtain ⟨res0, res1, hres⟩ := hc.responses
    obtain rfl : okResponse t.block.state res0 res1 = r := by simpa [hres] using hr
    exact ⟨okStatus_state _, .inr ⟨okStatus_err _, i, hi, hc⟩⟩

/-- A delay is resolved in CONFIGURED and RUNNING only (R166). -/
theorem state_ne_of_resolveDelay_ok {p : Params} {n : Nat} {b : Block} {ratio : Int} {fc : F64} {d : Nat}
    (h : resolveDelay p n b ratio fc = .ok d) : b.state ≠ .unconfigured := ((resolveDelay_ok_iff ..).mp h).1

/-- Settles O29: an error keeps the block, and a completion is one of the three commands'. -/
theorem lifecycleTransitions : Obligations.LifecycleTransitions := by
  refine ⟨rfl, rfl, rfl, fun s t p r h hr => ?_, fun s t p rest hin h => ?_⟩
  · obtain ⟨hstate, hans⟩ := servePacket_answer h hr
    obtain ⟨hnum, hne⟩ := stateField_toNat t.block.state
    refine ⟨by rw [hstate, hnum], hstate ▸ hne, ?_⟩
    rcases hans with ⟨herr, hblock⟩ | ⟨hok, i, hi, hc⟩
    · exact ⟨fun _ => by rw [hblock], fun _ _ _ h0 => absurd h0 herr, fun _ _ _ _ _ h0 => absurd h0 herr,
        fun _ _ => by rw [hblock]⟩
    · refine ⟨fun h0 => absurd hok h0, ?_⟩
      rw [hi]
      cases hc with
      | configure hcheck => simp
      | initRun hdelay hpd => simp [state_ne_of_resolveDelay_ok hdelay]
      | processSample hrun hlo hdly => simp
  · rcases step_cases s with ⟨hin', -⟩ | ⟨q, rest', hin', -⟩ | ⟨e, rest', -, -, h'⟩
    · simp [hin'] at hin
    · simp [hin'] at hin
    · cases h.symm.trans h'
      rfl

end Sys2Proof.Machine

/-! ## The invariants of R37 -/

namespace Sys2Proof.Machine

/-! ### The invariant by lifecycle state -/

theorem blockInv_unconfigured {p : Params} {b : Block} (h : b.state = .unconfigured) :
    BlockInv p b ↔ b = Block.reset := by simp only [BlockInv, h]

theorem blockInv_configured {p : Params} {b : Block} (h : b.state = .configured) :
    BlockInv p b ↔ ConfigOk p b ∧ RunCleared b := by simp only [BlockInv, h]

theorem blockInv_running {p : Params} {b : Block} (h : b.state = .running) :
    BlockInv p b ↔ ConfigOk p b ∧ RunOk p.maxDelay b := by simp only [BlockInv, h]

/-- Outside UNCONFIGURED the configuration registers meet their conditions. -/
theorem BlockInv.configOk {p : Params} {b : Block} (h : BlockInv p b) (hst : b.state ≠ .unconfigured) :
    ConfigOk p b := by
  cases hb : b.state with
  | unconfigured => exact absurd hb hst
  | configured => exact ((blockInv_configured hb).mp h).1
  | running => exact ((blockInv_running hb).mp h).1

theorem blockInv_reset (p : Params) : BlockInv p Block.reset := (blockInv_unconfigured rfl).mpr rfl

/-- In RUNNING both indices are in range (R33, R34). -/
theorem StateInv.indices_lt {s : State} (h : StateInv s) (hrun : s.block.state = .running) :
    s.block.loIdx < s.block.period ∧ s.block.dlyIdx < s.block.delay := by
  obtain ⟨-, -, -, -, -, -, -, hlo, hdly, -⟩ := (blockInv_running hrun).mp h.2
  exact ⟨hlo, hdly⟩

/-- Settles O32: the chosen parameters are valid, and the block is the reset block. -/
theorem invariantHoldsAtReset : Obligations.InvariantHoldsAtReset := ⟨by decide, blockInv_reset _⟩

/-! ### The blocks the three commands leave -/

/-- A quotient that exceeds zero is no draw: the primitive answered it. -/
theorem fdiv_eq_some_of_fgt {A : Arith} {n : Nat} {a b c : F64} (h : fgt (fdiv A n a b) c = true) :
    A.fdiv a b = some (fdiv A n a b) := by
  unfold fdiv at h ⊢
  cases hq : A.fdiv a b with
  | none => simp [hq, fgt] at h
  | some q => rfl

/-- What CONFIGURE accepts makes a good configuration (R161, R162). -/
theorem configOk_configureBlock {p : Params} {n : Nat} {fs : F64} {osr : Int} (b : Block) (hosr : inI32 osr = true)
    (h : configureCheck p n fs osr = none) : ConfigOk p (configureBlock p n fs osr b) := by
  obtain ⟨hpos, hmod, hfin, hfs, hflo⟩ := (configureCheck_none_iff p n fs osr).mp h
  simp only [inI32, Bool.and_eq_true, decide_eq_true_eq] at hosr
  simp only [ConfigOk, configureBlock_fs, configureBlock_osr, configureBlock_flo, configureBlock_period,
    configureBlock_quarter]
  exact ⟨hfin, hfs, by omega, by omega, hmod, by omega, by omega, fdiv_eq_some_of_fgt hflo, hflo⟩

theorem runCleared_configureBlock (p : Params) (n : Nat) (fs : F64) (osr : Int) (b : Block) :
    RunCleared (configureBlock p n fs osr b) := by
  simp [RunCleared, Memory.clear]

theorem bufferOk_clear (d : Nat) : BufferOk d Memory.clear := ⟨Memory.wf_clear, by simp [Memory.clear]⟩

theorem BufferOk.write {d k : Nat} {m : Memory} (h : BufferOk d m) (hk : k < d) (v : F64) : BufferOk d (m.write k v) :=
  ⟨Memory.write_wf k v h.1, Memory.write_lt v hk h.2⟩

/-- The period of a good configuration is not zero (R23, R25). -/
theorem ConfigOk.period_pos {p : Params} {b : Block} (h : ConfigOk p b) : 0 < b.period := by
  obtain ⟨-, -, hosr, -, -, hperiod, -⟩ := h
  omega

@[simp] theorem configOk_initRunBlock (p : Params) (d : Nat) (pd : F64) (ratio : Int) (fc mas fsens : F64)
    (b : Block) : ConfigOk p (initRunBlock d pd ratio fc mas fsens b) ↔ ConfigOk p b := by
  simp only [ConfigOk, initRunBlock_fs, initRunBlock_osr, initRunBlock_flo, initRunBlock_period, initRunBlock_quarter]

@[simp] theorem configOk_samplePipeline (p : Params) (n : Nat) (x : F64) (b : Block) :
    ConfigOk p (samplePipeline p n x b) ↔ ConfigOk p b := by
  simp only [ConfigOk, samplePipeline_fs, samplePipeline_osr, samplePipeline_flo, samplePipeline_period,
    samplePipeline_quarter]

/-- What INIT_RUN accepts makes a good run at its first sample (R166, R167). -/
theorem runOk_initRunBlock {p : Params} {n d : Nat} {b : Block} {ratio : Int} {fc : F64} (pd mas fsens : F64)
    (hcfg : ConfigOk p b) (hratio : inI32 ratio = true) (h : resolveDelay p n b ratio fc = .ok d) :
    RunOk p.maxDelay (initRunBlock d pd ratio fc mas fsens b) := by
  obtain ⟨-, hr, hfc, hne, -, -, -, hd, hmax⟩ := (resolveDelay_ok_iff ..).mp h
  simp only [RunOk, initRunBlock_dratio, initRunBlock_fc, initRunBlock_flo, initRunBlock_delay, initRunBlock_loIdx,
    initRunBlock_period, initRunBlock_dlyIdx, initRunBlock_iBuf, initRunBlock_qBuf]
  exact ⟨hr, hratio, hfc, hne, hd, hmax, hcfg.period_pos, hd, bufferOk_clear d, bufferOk_clear d⟩

/-- A sample moves both indices within their ranges and writes both buffers in their active part (R51, R103, R144). -/
theorem RunOk.samplePipeline {maxDelay : Nat} {b : Block} (h : RunOk maxDelay b) (p : Params) (n : Nat) (x : F64) :
    RunOk maxDelay (samplePipeline p n x b) := by
  obtain ⟨hratio, hi32, hfc, hne, hd, hmax, hlo, hdly, hI, hQ⟩ := h
  simp only [RunOk, samplePipeline_dratio, samplePipeline_fc, samplePipeline_flo, samplePipeline_delay,
    samplePipeline_loIdx, samplePipeline_period, samplePipeline_dlyIdx, samplePipeline_iBuf, samplePipeline_qBuf]
  exact ⟨hratio, hi32, hfc, hne, hd, hmax, Nat.mod_lt _ (by omega), Nat.mod_lt _ hd, hI.write hdly _, hQ.write hdly _⟩

/-! ### Every step keeps the invariant -/

theorem Completes.stateInv {i : Instr} {s t : State} (hc : Completes s i t) (hwf : i.wf = true) (h : StateInv s) :
    StateInv t := by
  obtain ⟨hparams, hblock⟩ := h
  refine ⟨by cases hc <;> exact hparams, ?_⟩
  cases hc with
  | configure hcheck =>
    exact (blockInv_configured rfl).mpr ⟨configOk_configureBlock _ hwf hcheck, runCleared_configureBlock ..⟩
  | initRun hdelay hpd =>
    have hcfg := hblock.configOk (state_ne_of_resolveDelay_ok hdelay)
    exact (blockInv_running rfl).mpr ⟨(configOk_initRunBlock ..).mpr hcfg, runOk_initRunBlock _ _ _ hcfg hwf hdelay⟩
  | processSample hrun hlo hdly =>
    obtain ⟨hcfg, hok⟩ := (blockInv_running hrun).mp hblock
    rw [complete_params, complete_block, blockInv_running ((samplePipeline_state ..).trans hrun)]
    exact ⟨(configOk_samplePipeline ..).mpr hcfg, hok.samplePipeline ..⟩

theorem exec_stateInv {i : Instr} {s t : State} (hwf : i.wf = true) (h : StateInv s) (hexec : exec i s = .next t) :
    StateInv t := by
  rcases exec_next_cases hexec with ⟨e, rfl⟩ | hc
  · exact h
  · exact hc.stateInv hwf h

/-- A decoded command has an encoding: its integer operand was read from 32 bits (R74). -/
theorem wf_of_decode {p : Packet} {i : Instr} (h : decode p = .command i) : i.wf = true := by
  rcases decode_cases p with ⟨-, -, -, h'⟩ | ⟨-, -, h'⟩ | ⟨-, -, h'⟩ | ⟨-, -, h'⟩ | ⟨-, -, h'⟩ <;> cases h.symm.trans h'
  · exact inI32_i32 p.op1
  · exact inI32_i32 p.op0
  · rfl

theorem servePacket_stateInv {p : Packet} {s t : State} (h : StateInv s) (hserve : servePacket p s = .next t) :
    StateInv t := by
  rcases servePacket_next_cases hserve with ⟨e, rfl⟩ | ⟨i, hi, hc⟩
  · exact h
  · exact hc.stateInv (wf_of_decode hi) h

/-- Settles O33: what is still to be sent is no part of the invariant, a packet keeps it, and so does a reset. -/
theorem everyStepKeepsTheInvariant : Obligations.EveryStepKeepsTheInvariant := by
  intro s t h hstep
  rcases step_cases s with ⟨-, h'⟩ | ⟨p, rest, -, h'⟩ | ⟨e, rest, -, -, h'⟩
  · cases hstep.symm.trans h'
    exact h
  · exact servePacket_stateInv (s := { s with inputs := rest }) h (h'.symm.trans hstep)
  · cases hstep.symm.trans h'
    exact ⟨h.1, blockInv_reset _⟩

end Sys2Proof.Machine

/-! ## The indices within a run (R38) -/

namespace Sys2Proof.Machine

/-! ### In a state that meets the invariant every packet is answered (R218) -/

/-- A sample in RUNNING finds both indices in range and runs the pipeline. -/
theorem exec_processSample_of_stateInv {s : State} (h : StateInv s) (hrun : s.block.state = .running) (x : F64) :
    exec (.processSample x) s
      = .next (complete (samplePipeline s.params s.nanDraws x s.block) 20
          (bits64 (samplePipeline s.params s.nanDraws x s.block).fOut.bufOut) 0#64 s) := by
  obtain ⟨hlo, hdly⟩ := h.indices_lt hrun
  rcases execProcessSample_cases x s with ⟨hst, -⟩ | ⟨hst, -⟩ | ⟨-, h'⟩
  · cases hrun.symm.trans hst
  · cases hrun.symm.trans hst
  · exact h'.trans ((if_neg hlo.not_ge).trans (if_neg hdly.not_ge))

theorem exec_next_of_stateInv {s : State} (h : StateInv s) (i : Instr) : ∃ t, exec i s = .next t := by
  rcases exec_cases i s with ⟨e, h'⟩ | ⟨b, draws, res0, res1, h'⟩ | ⟨hrun, f, h'⟩
  · exact ⟨_, h'⟩
  · exact ⟨_, h'⟩
  · cases i with
    | configure fs osr => rcases execConfigure_cases fs osr s with ⟨e, -, h⟩ | ⟨-, h⟩ <;> exact ⟨_, h⟩
    | initRun ratio fc mas fsens =>
      rcases execInitRun_cases ratio fc mas fsens s with ⟨e, -, h⟩ | ⟨d, -, h⟩ <;> exact ⟨_, h⟩
    | processSample x => exact ⟨_, exec_processSample_of_stateInv h hrun x⟩

theorem servePacket_next_of_stateInv {s : State} (h : StateInv s) (p : Packet) : ∃ t, servePacket p s = .next t := by
  cases hd : decode p with
  | command i =>
    rw [servePacket_of_command hd]
    exact exec_next_of_stateInv h i
  | illegal c => exact ⟨_, servePacket_of_illegal hd s⟩

/-! ### The packets of a run -/

/-- The first packet of a run is a sample that runs the pipeline, or leaves the block as it is. -/
theorem servePacket_of_staysInRun {p : Packet} {ps : List Packet} {s : State} (h : StateInv s)
    (hrun : s.block.state = .running) (hstays : staysInRun (p :: ps) s = true) :
    ∃ t, servePacket p s = .next t ∧ staysInRun ps t = true ∧
      ((isSample p = false ∧ t.block = s.block) ∨
        (isSample p = true ∧ ∃ x, decode p = .command (.processSample x) ∧
          t.block = samplePipeline s.params s.nanDraws x s.block)) := by
  obtain ⟨t, ht⟩ := servePacket_next_of_stateInv h p
  obtain ⟨hp, hps⟩ := (staysInRun_cons ht).mp hstays
  refine ⟨t, ht, hps, ?_⟩
  cases hs : isSample p with
  | true =>
    obtain ⟨x, hx⟩ := (isSample_iff p).mp hs
    rw [servePacket_of_command hx, exec_processSample_of_stateInv h hrun] at ht
    cases ht
    exact .inr ⟨rfl, x, hx, rfl⟩
  | false =>
    have herr : lastIsError t = true := hp.resolve_left (by simp [hs])
    rcases servePacket_next_cases ht with ⟨e, rfl⟩ | ⟨i, -, hc⟩
    · exact .inl ⟨rfl, rfl⟩
    · cases herr.symm.trans hc.lastIsError

/-- Each sample of a run moves both indices by one, modulo their periods, and nothing else in the run moves them. -/
theorem runPackets_indices {ps : List Packet} {s : State} (h : StateInv s) (hrun : s.block.state = .running)
    (hstays : staysInRun ps s = true) :
    ∃ t, runPackets ps s = .next t ∧ t.block.state = .running ∧
      t.block.loIdx = (s.block.loIdx + ps.countP isSample) % s.block.period ∧
      t.block.dlyIdx = (s.block.dlyIdx + ps.countP isSample) % s.block.delay := by
  induction ps generalizing s with
  | nil =>
    obtain ⟨hlo, hdly⟩ := h.indices_lt hrun
    exact ⟨s, rfl, hrun, (Nat.mod_eq_of_lt hlo).symm, (Nat.mod_eq_of_lt hdly).symm⟩
  | cons p ps ih =>
    obtain ⟨t, ht, hps, hcase⟩ := servePacket_of_staysInRun h hrun hstays
    have hinv := servePacket_stateInv h ht
    rw [runPackets_cons ps ht]
    rcases hcase with ⟨hs, hblock⟩ | ⟨hs, x, -, hblock⟩
    · rw [List.countP_cons_of_neg (by simp [hs]), ← hblock]
      exact ih hinv (by rw [hblock, hrun]) hps
    · obtain ⟨v, hv, hvrun, hlo, hdly⟩ := ih hinv (by rw [hblock, samplePipeline_state, hrun]) hps
      refine ⟨v, hv, hvrun, ?_, ?_⟩
      · rw [hlo, hblock, samplePipeline_loIdx, samplePipeline_period, Nat.mod_add_mod, List.countP_cons_of_pos hs,
          Nat.add_assoc, Nat.add_comm 1]
      · rw [hdly, hblock, samplePipeline_dlyIdx, samplePipeline_delay, Nat.mod_add_mod, List.countP_cons_of_pos hs,
          Nat.add_assoc, Nat.add_comm 1]

/-- An INIT_RUN answered with the STATUS word of a success in RUNNING completed. -/
theorem Completes.of_okStatus_running {i : Instr} {u s : State} {r : Response} (hexec : exec i u = .next s)
    (hr : s.responses = u.responses ++ [r]) (hstatus : r.status = 0x00000200#32) : Completes u i s := by
  refine (exec_next_cases hexec).resolve_left ?_
  rintro ⟨e, rfl⟩
  obtain rfl : errResponse e u.block.state = r := by simpa using hr
  exact errStatus_err_ne_zero e u.block.state ((congrArg (·.extractLsb' 0 4) hstatus).trans (by decide))

/-- Settles O39: INIT_RUN clears both indices, and each sample of the run moves them by one. -/
theorem indicesCountTheSamples : Obligations.IndicesCountTheSamples := by
  intro u s r ratio fc mas fsens ps hu hratio hexec hr hstatus hstays
  have hs : StateInv s := exec_stateInv (i := .initRun ratio fc mas fsens) hratio hu hexec
  obtain ⟨hrun, hlo, hdly⟩ : s.block.state = .running ∧ s.block.loIdx = 0 ∧ s.block.dlyIdx = 0 := by
    cases Completes.of_okStatus_running hexec hr hstatus
    exact ⟨rfl, rfl, rfl⟩
  have h := runPackets_indices hs hrun hstays
  rw [hlo, hdly, Nat.zero_add] at h
  rw [run_sendPackets]
  exact h

end Sys2Proof.Machine

/-! ## Power-on values are unobservable (R44) -/

namespace Sys2Proof.Machine

/-- The machine with another block. -/
def withBlock (b : Block) (s : State) : State := { s with block := b }

/-- The outcome `o'` of a machine that had the block `b` at power-on, against the outcome `o` of one with another
block: the same, or both are UNCONFIGURED still and only the block differs. -/
def PowerOnAlike (b : Block) (o o' : Host.Outcome State Fault Refusal) : Prop :=
  o' = o ∨ ∃ t, t.block.state = .unconfigured ∧ o = .next t ∧ o' = .next (withBlock b t)

@[simp] theorem complete_withBlock (b c : Block) (draws : Nat) (res0 res1 : Word64) (s : State) :
    complete c draws res0 res1 (withBlock b s) = complete c draws res0 res1 s := rfl

/-- UNCONFIGURED answers PrematureUse before it reads any other field (R166, R203). -/
theorem exec_initRun_of_unconfigured {s : State} (hs : s.block.state = .unconfigured) {ratio : Int}
    {fc mas fsens : F64} :
    exec (.initRun ratio fc mas fsens) s = .next (raise { code := .prematureUse, cause := 1 } s) :=
  execInitRun_error (if_pos hs)

theorem exec_processSample_of_unconfigured {s : State} (hs : s.block.state = .unconfigured) {x : F64} :
    exec (.processSample x) s = .next (raise { code := .prematureUse, cause := 1 } s) := by
  simp only [exec, execProcessSample, hs]

/-- CONFIGURE writes every field, so nothing of the block before it is left (R162). -/
theorem configureBlock_of_any (p : Params) (n : Nat) (fs : F64) (osr : Int) (b c : Block) :
    configureBlock p n fs osr b = configureBlock p n fs osr c := rfl

section
variable {b : Block} {s : State} (hb : b.state = .unconfigured) (hs : s.block.state = .unconfigured)
include hb hs

/-- An error reads the lifecycle state only and leaves the block as it is (R206). -/
theorem PowerOnAlike.raise (e : Err) : PowerOnAlike b (.next (raise e s)) (.next (raise e (withBlock b s))) := by
  refine .inr ⟨Machine.raise e s, hs, rfl, ?_⟩
  simp only [Machine.raise, withBlock, respond, hb, hs]

theorem execConfigure_powerOnAlike (fs : F64) (osr : Int) :
    PowerOnAlike b (execConfigure fs osr s) (execConfigure fs osr (withBlock b s)) := by
  rcases execConfigure_cases fs osr s with ⟨e, hc, h⟩ | ⟨hc, h⟩
  · rw [h, execConfigure_error (s := withBlock b s) hc]
    exact .raise hb hs e
  · rw [h, execConfigure_ok (s := withBlock b s) hc, configureBlock_of_any _ _ _ _ _ s.block, complete_withBlock]
    exact .inl rfl

theorem servePacket_powerOnAlike (p : Packet) : PowerOnAlike b (servePacket p s) (servePacket p (withBlock b s)) := by
  cases hd : decode p with
  | command i =>
    rw [servePacket_of_command hd, servePacket_of_command hd]
    cases i with
    | configure fs osr => exact execConfigure_powerOnAlike hb hs fs osr
    | initRun ratio fc mas fsens =>
      rw [exec_initRun_of_unconfigured hs, exec_initRun_of_unconfigured (s := withBlock b s) hb]
      exact .raise hb hs _
    | processSample x =>
      rw [exec_processSample_of_unconfigured hs, exec_processSample_of_unconfigured (s := withBlock b s) hb]
      exact .raise hb hs _
  | illegal c =>
    rw [servePacket_of_illegal hd, servePacket_of_illegal hd]
    exact .raise hb hs _

/-- A reset makes the blocks the same, and an idle step leaves them as they are. -/
theorem step_powerOnAlike : PowerOnAlike b (step s) (step (withBlock b s)) := by
  rcases step_cases s with ⟨hin, h⟩ | ⟨p, rest, hin, h⟩ | ⟨e, rest, hin, he, h⟩
  · have h' : step (withBlock b s) = .next (withBlock b s) := by simp only [step, serve, withBlock, hin]
    rw [h, h']
    exact .inr ⟨s, hs, rfl, rfl⟩
  · rw [h, step_of_command (s := withBlock b s) hin]
    exact servePacket_powerOnAlike (s := { s with inputs := rest }) hb hs p
  · refine .inl ?_
    rw [h]
    rcases he with rfl | ⟨p, rfl⟩ <;> simp only [step, serve, withBlock, hin, serveEvent, hardwareReset]

end

/-- A run depends on its first state only through the first step. -/
theorem run_congr_step (M : Host.Core) {s t : M.State} (h : M.step s = M.step t) (k : Nat) :
    M.run (k + 1) s = M.run (k + 1) t := by
  simp only [Host.Core.run, h]

theorem run_powerOnAlike (k : Nat) {b : Block} {s : State} (hb : b.state = .unconfigured)
    (hs : s.block.state = .unconfigured) : PowerOnAlike b (core.run k s) (core.run k (withBlock b s)) := by
  induction k generalizing s with
  | zero => exact .inr ⟨s, hs, rfl, rfl⟩
  | succ k ih =>
    rcases step_powerOnAlike hb hs with h | ⟨t, ht, h, h'⟩
    · exact .inl (run_congr_step core h k)
    · rw [core_run_of_next h, core_run_of_next h']
      exact ih ht

/-- Settles O14, by induction on the steps: in UNCONFIGURED nothing but STATE is read, and what leaves UNCONFIGURED
writes every field. -/
theorem powerOnValuesAreUnobservable : Obligations.PowerOnValuesAreUnobservable := by
  intro k s t hs ht hparams hinputs hresp hdraws
  have heq : t = withBlock t.block s := by rw [withBlock, hparams, hinputs, hresp, hdraws]
  rw [heq]
  rcases run_powerOnAlike k ht hs with h | ⟨u, hu, h, h'⟩
  · rw [h]
    cases core.run k s <;> simp
  · rw [h, h']
    exact ⟨rfl, ht.symm ▸ hu⟩

end Sys2Proof.Machine

/-! ## The local-oscillator frequency is finite (R8, R24, R161) -/

namespace Sys2Proof.Machine

/-- A rounded quotient is finite up to the threshold of overflow. -/
theorem roundMag_lt_infMag_iff (n : Nat) {d : Nat} (hd : 0 < d) :
    roundMag n d < infMag ↔ n < d * ((2 ^ 54 - 1) * 2 ^ 2044) := by
  rw [lt_iff_le_and_ne, and_iff_right (roundMag_le n d), Ne, (roundingIsToNearestEven n d hd).2, Nat.not_le]

/-- Every finite size is below the threshold of overflow. -/
theorem unitsOf_lt_overflow {m : Nat} (h : m < infMag) : unitsOf m < (2 ^ 54 - 1) * 2 ^ 2044 := by
  have hmid := unitsOf_overflow_middle
  have hle : unitsOf m ≤ unitsOf (infMag - 1) := unitsOf_strictMono.monotone (by omega)
  have hlt : unitsOf (infMag - 1) < unitsOf infMag := unitsOf_strictMono (by decide)
  generalize (2 ^ 54 - 1) * 2 ^ 2044 = T at *
  omega

/-- A finite value over a finite value of at least one in size does not overflow. -/
theorem isFinite_fdiv_of_one_le (n : Nat) {a b : F64} (ha : isFinite a = true) (hb : isFinite b = true)
    (hone : scale ≤ unitsOf (magBits b)) : isFinite (fdiv ieeeArith n a b) = true := by
  have hpos : 0 < unitsOf (magBits b) := Nat.lt_of_lt_of_le scale_pos hone
  have hz : isZero b = false := by
    rw [← Bool.not_eq_true, isZero_iff, ← unitsOf_eq_zero]
    exact hpos.ne'
  rw [fdiv_of_finite n ha hb hz, isFinite_iff, magBits_pack _ (roundMag_lt _ _), roundMag_lt_infMag_iff _ hpos]
  calc unitsOf (magBits a) * scale
      < (2 ^ 54 - 1) * 2 ^ 2044 * scale :=
        Nat.mul_lt_mul_of_pos_right (unitsOf_lt_overflow ((isFinite_iff a).mp ha)) scale_pos
    _ ≤ unitsOf (magBits b) * ((2 ^ 54 - 1) * 2 ^ 2044) := by
        rw [Nat.mul_comm]
        exact Nat.mul_le_mul_right _ hone

/-- Settles O15: the ratio converts exactly and is at least one, so the quotient does not overflow. -/
theorem loFrequencyIsFinite : Obligations.LoFrequencyIsFinite := by
  intro n fs osr hfs hlo hhi
  obtain ⟨hfin, hunits⟩ := f64OfInt_exact (n := osr) (by omega)
  refine isFinite_fdiv_of_one_le n hfs hfin ?_
  rw [← natAbs_signedUnits, hunits, Int.natAbs_mul, Int.natAbs_natCast]
  exact Nat.le_mul_of_pos_left _ (by omega)

end Sys2Proof.Machine

/-! ## Bytes of a transport (R56, R57) -/

namespace Sys2Proof.Machine

/-! ### The bytes of a word -/

/-- Byte `i` of a number. -/
theorem getElem?_bytesLE {i k : Nat} (h : i < k) (n : Nat) :
    (bytesLE k n)[i]? = some (BitVec.ofNat 8 (n / 256 ^ i)) := by
  induction k generalizing i n with
  | zero => omega
  | succ k ih =>
    cases i with
    | zero => simp [bytesLE]
    | succ i =>
      rw [bytesLE, List.getElem?_cons_succ, ih (by omega), Nat.div_div_eq_div_mul, ← Nat.pow_succ']

/-- Byte `i` of a word is its bits `8 i + 7` to `8 i`. -/
theorem getElem?_bytesLE_toNat {i k m : Nat} (h : i < k) (w : BitVec m) :
    (bytesLE k w.toNat)[i]? = some (w.extractLsb' (8 * i) 8) := by
  rw [getElem?_bytesLE h, BitVec.extractLsb', Nat.shiftRight_eq_div_pow, Nat.pow_mul]

/-- The bytes of a whole word hold that word. -/
theorem ofBytesLE_bytesLE_toNat {k m : Nat} (hm : 2 ^ m = 256 ^ k) (w : BitVec m) :
    ofBytesLE (bytesLE k w.toNat) = w.toNat := by
  rw [ofBytesLE_bytesLE, ← hm, Nat.mod_eq_of_lt w.isLt]

/-! ### Packets and responses -/

/-- The bytes of a packet hold its words, CMD lowest. -/
theorem ofBytesLE_packetBytes (p : Packet) :
    ofBytesLE (packetBytes p) = p.cmd.toNat + 2 ^ 32 * p.op0.toNat + 2 ^ 96 * p.op1.toNat + 2 ^ 160 * p.op2.toNat
      + 2 ^ 224 * p.op3.toNat := by
  simp only [packetBytes, ofBytesLE_append, List.length_append, bytesLE_length,
    ofBytesLE_bytesLE_toNat (k := 4) (m := 32) rfl, ofBytesLE_bytesLE_toNat (k := 8) (m := 64) rfl]
  norm_num

/-- The bits of a packet's bytes are the packet. -/
theorem packetOfBits_ofBytesLE_packetBytes (p : Packet) : packetOfBits (ofBytesLE (packetBytes p)) = p := by
  obtain ⟨cmd, op0, op1, op2, op3⟩ := p
  have hcmd := cmd.isLt
  have h0 := op0.isLt
  have h1 := op1.isLt
  have h2 := op2.isLt
  simp only [ofBytesLE_packetBytes, packetOfBits, Packet.mk.injEq]
  refine ⟨?_, ?_, ?_, ?_, ?_⟩ <;> exact BitVec.eq_of_toNat_eq (by rw [BitVec.toNat_ofNat]; omega)

theorem packetOfBytes_packetBytes_append (p : Packet) (rest : List Byte) :
    packetOfBytes (packetBytes p ++ rest) = .ok (p, rest) := by
  have hlen := packetBytes_length p
  rw [packetOfBytes, if_neg (by rw [List.length_append]; omega), List.take_left' hlen, List.drop_left' hlen,
    packetOfBits_ofBytesLE_packetBytes]

theorem decodeBytes_packetBytes_append (p : Packet) (rest : List Byte) :
    decodeBytes (packetBytes p ++ rest) = .ok (decode p, rest) := by
  rw [decodeBytes, packetOfBytes_packetBytes_append]

theorem decodeBytes_partial {bs : List Byte} (h : bs.length < 36) :
    decodeBytes bs = .error (.partialPacket bs.length) := by
  rw [decodeBytes, packetOfBytes, if_pos h]

/-- Byte `k` of each word of a packet, at its place in the packet's bytes. -/
theorem getElem?_packetBytes (p : Packet) (k : Nat) :
    (k < 4 → (packetBytes p)[k]? = some (p.cmd.extractLsb' (8 * k) 8)) ∧
    (k < 8 →
      (packetBytes p)[4 + k]? = some (p.op0.extractLsb' (8 * k) 8) ∧
      (packetBytes p)[12 + k]? = some (p.op1.extractLsb' (8 * k) 8) ∧
      (packetBytes p)[20 + k]? = some (p.op2.extractLsb' (8 * k) 8) ∧
      (packetBytes p)[28 + k]? = some (p.op3.extractLsb' (8 * k) 8)) := by
  constructor <;> intro hk <;>
  · simp (disch := simp only [List.length_append, bytesLE_length]; omega) only [packetBytes,
      List.getElem?_append_left, List.getElem?_append_right, List.length_append, bytesLE_length, Nat.reduceAdd,
      Nat.add_sub_cancel_left]
    simp only [getElem?_bytesLE_toNat hk, and_self]

/-- A response is laid out as the first three words of a packet are. -/
theorem getElem?_responseBytes (r : Response) {k : Nat} (hk : k < 20) :
    (responseBytes r)[k]? = (packetBytes ⟨r.status, r.res0, r.res1, 0#64, 0#64⟩)[k]? := by
  rw [packetBytes, List.append_assoc, ← responseBytes, List.getElem?_append_left (by simpa [responseBytes] using hk)]

/-- Settles O6: the bytes hold the packet's bits, and each word stands at its place among them. -/
theorem bytesOfAPacketDecodeAsThePacket : Obligations.BytesOfAPacketDecodeAsThePacket := by
  refine ⟨decodeBytes_packetBytes_append, fun p k => ⟨packetBytes_length p, getElem?_packetBytes p k⟩, fun r k => ?_,
    fun _ => decodeBytes_partial⟩
  obtain ⟨hstatus, hres⟩ := getElem?_packetBytes ⟨r.status, r.res0, r.res1, 0#64, 0#64⟩ k
  refine ⟨by simp [responseBytes], fun hk => ?_, fun hk => ?_⟩
  · rw [getElem?_responseBytes r (by omega)]
    exact hstatus hk
  · obtain ⟨hres0, hres1, -⟩ := hres hk
    rw [getElem?_responseBytes r (by omega), getElem?_responseBytes r (by omega)]
    exact ⟨hres0, hres1⟩

end Sys2Proof.Machine

/-! ## The delay line of a sample (R51, R141, R144) -/

namespace Sys2Proof.Machine

/-- A sample in RUNNING with both indices in range runs the pipeline. -/
theorem exec_processSample_of_indices_lt {s : State} (hrun : s.block.state = .running)
    (hlo : s.block.loIdx < s.block.period) (hdly : s.block.dlyIdx < s.block.delay) (x : F64) :
    exec (.processSample x) s
      = .next (complete (samplePipeline s.params s.nanDraws x s.block) 20
          (bits64 (samplePipeline s.params s.nanDraws x s.block).fOut.bufOut) 0#64 s) := by
  simp only [exec, execProcessSample, hrun, runSample, if_neg hlo.not_ge, if_neg hdly.not_ge]

/-- Settles O25: of what PROCESS_SAMPLE can do, only a failed guard of RUNNING stops. -/
theorem sampleStopsOnlyOutsideItsTables : Obligations.SampleStopsOnlyOutsideItsTables := by
  intro s x f
  show execProcessSample x s = .fault f ↔ _
  rcases execProcessSample_cases x s with ⟨hst, h⟩ | ⟨hst, h⟩ | ⟨hrun, h⟩
  · simp [h, hst]
  · simp [h, hst]
  · rw [h, and_iff_right hrun]
    rcases runSample_cases x s with ⟨hlo, h'⟩ | ⟨hlo, hdly, h'⟩ | ⟨hlo, hdly, h'⟩
    · simp [h', hlo, hlo.not_gt, eq_comm]
    · simp [h', hlo, hlo.not_ge, hdly, eq_comm]
    · simp [h', hlo.not_ge, hdly.not_ge]

/-- Settles O22: the pipeline writes the filter outputs at `DLY_IDX`, and a write touches one entry. -/
theorem processSampleWritesOnePair : Obligations.ProcessSampleWritesOnePair := by
  intro s x hrun hlo hdly hI hQ
  refine ⟨_, exec_processSample_of_indices_lt hrun hlo hdly x, ?_⟩
  simp only [complete_block, samplePipeline_iBuf, samplePipeline_qBuf, samplePipeline_fI, samplePipeline_fQ,
    samplePipeline_dlyIdx, and_true]
  exact ⟨Memory.read_write_same _ _ hI, Memory.read_write_same _ _ hQ,
    fun k hk => ⟨Memory.read_write_other hk _ _, Memory.read_write_other hk _ _⟩⟩

/-! ### The canonical form of the buffers -/

/-- Both delay buffers of a block are in canonical form. -/
def BuffersWf (b : Block) : Prop := b.iBuf.wf ∧ b.qBuf.wf

theorem buffersWf_reset : BuffersWf Block.reset := ⟨Memory.wf_nil, Memory.wf_nil⟩

/-- CONFIGURE and INIT_RUN clear both buffers, and a sample writes one entry of each. -/
theorem Completes.buffersWf {i : Instr} {s t : State} (hc : Completes s i t) (h : BuffersWf s.block) :
    BuffersWf t.block := by
  obtain ⟨hI, hQ⟩ := h
  cases hc with
  | configure => exact ⟨Memory.wf_clear, Memory.wf_clear⟩
  | initRun => exact ⟨Memory.wf_clear, Memory.wf_clear⟩
  | processSample => exact ⟨Memory.write_wf _ _ hI, Memory.write_wf _ _ hQ⟩

theorem servePacket_buffersWf {p : Packet} {s t : State} (h : BuffersWf s.block) (hserve : servePacket p s = .next t) :
    BuffersWf t.block := by
  rcases servePacket_next_cases hserve with ⟨e, rfl⟩ | ⟨i, -, hc⟩
  · exact h
  · exact hc.buffersWf h

/-- Settles O31: an idle step and an error keep the buffers, a completion writes or clears them, a reset empties them. -/
theorem buffersStayCanonical : Obligations.BuffersStayCanonical := by
  intro s t hI hQ hstep
  rcases step_cases s with ⟨-, h'⟩ | ⟨p, rest, -, h'⟩ | ⟨e, rest, -, -, h'⟩
  · cases hstep.symm.trans h'
    exact ⟨hI, hQ⟩
  · exact servePacket_buffersWf (s := { s with inputs := rest }) ⟨hI, hQ⟩ (h'.symm.trans hstep)
  · cases hstep.symm.trans h'
    exact buffersWf_reset

end Sys2Proof.Machine

/-! ## Decoding and encoding a packet (R70 to R75, R81, R83, R85) -/

namespace Sys2Proof.Machine

/-! ### The five cases of a command word (R81) -/

/-- The command words of R81: the three commands, an unassigned opcode, and an assigned opcode under a reserved field
that is not zero. -/
theorem commandWord_cases (c : Word32) :
    c = 0x00000001#32 ∨ c = 0x00000002#32 ∨ c = 0x00000003#32 ∨ c.toNat % 256 ∉ [1, 2, 3] ∨
    (c.toNat % 256 ∈ [1, 2, 3] ∧ c.toNat / 256 ≠ 0) := by
  simp only [← BitVec.toNat_inj, BitVec.toNat_ofNat, List.mem_cons, List.not_mem_nil, or_false]
  omega

section
variable {p : Packet}

theorem decode_configure (h : p.cmd = 0x00000001#32) : decode p = .command (.configure (f64 p.op0) (i32 p.op1)) := by
  rw [decode, h]
  rfl

theorem decode_initRun (h : p.cmd = 0x00000002#32) :
    decode p = .command (.initRun (i32 p.op0) (f64 p.op1) (f64 p.op2) (f64 p.op3)) := by
  rw [decode, h]
  rfl

theorem decode_processSample (h : p.cmd = 0x00000003#32) : decode p = .command (.processSample (f64 p.op0)) := by
  rw [decode, h]
  rfl

/-- The opcode is one of the three assigned ones, as a number (R72). -/
theorem opcode_assigned_iff (c : Word32) :
    (opcode c = 0x01#8 ∨ opcode c = 0x02#8 ∨ opcode c = 0x03#8) ↔ c.toNat % 256 ∈ [1, 2, 3] := by
  simp [← BitVec.toNat_inj, opcode_toNat]

theorem decode_unassigned (h : p.cmd.toNat % 256 ∉ [1, 2, 3]) : decode p = .illegal 1 := by
  rw [← opcode_assigned_iff, not_or, not_or] at h
  rw [decode, if_pos h]

theorem decode_reserved (h : p.cmd.toNat % 256 ∈ [1, 2, 3]) (hr : p.cmd.toNat / 256 ≠ 0) : decode p = .illegal 2 := by
  have hrsvd : rsvd p.cmd ≠ 0#24 := fun h0 => hr (by rw [← rsvd_toNat, h0]; rfl)
  rw [← opcode_assigned_iff] at h
  rw [decode, if_neg (by tauto), if_pos hrsvd]

end

/-- Settles O3, one clause for each case. -/
theorem decodingIsTheFiveCases : Obligations.DecodingIsTheFiveCases := fun _ =>
  ⟨decode_configure, decode_initRun, decode_processSample, decode_unassigned, decode_reserved⟩

/-! ### Decoding and encoding -/

/-- Settles O1: every operand word reads back as its operand. -/
theorem decodeOfEncodeIsTheCommand : Obligations.DecodeOfEncodeIsTheCommand := by
  intro i hwf
  cases i with
  | configure fs osr =>
    have hosr : i32 (wordOfI32 osr) = osr := i32_wordOfI32 hwf
    rw [decode_configure rfl, encode, f64_bits64, hosr]
  | initRun ratio fc mas fsens =>
    have hratio : i32 (wordOfI32 ratio) = ratio := i32_wordOfI32 hwf
    rw [decode_initRun rfl, encode, hratio, f64_bits64, f64_bits64, f64_bits64]
  | processSample x => rw [decode_processSample rfl, encode, f64_bits64]

/-- The word of an integer operand read from a word has that word's bits 31:0 (R74). -/
theorem setWidth_wordOfI32_i32 (w : Word64) : (wordOfI32 (i32 w)).setWidth 32 = w.setWidth 32 := by
  rw [wordOfI32, i32, BitVec.ofInt_toInt, BitVec.setWidth_setWidth_of_le _ (by decide), BitVec.setWidth_eq]

/-- Settles O2: the decoder's three command cases, where a read operand is written back. -/
theorem encodeOfDecodeKeepsEveryReadBit : Obligations.EncodeOfDecodeKeepsEveryReadBit := by
  intro p i h
  refine ⟨wf_of_decode h, ?_⟩
  rcases commandWord_cases p.cmd with hc | hc | hc | hc | ⟨hc, hr⟩
  · cases h.symm.trans (decode_configure hc)
    exact ⟨hc.symm, rfl, setWidth_wordOfI32_i32 p.op1⟩
  · cases h.symm.trans (decode_initRun hc)
    exact ⟨hc.symm, setWidth_wordOfI32_i32 p.op0, rfl, rfl, rfl⟩
  · cases h.symm.trans (decode_processSample hc)
    exact ⟨hc.symm, rfl⟩
  · cases h.symm.trans (decode_unassigned hc)
  · cases h.symm.trans (decode_reserved hc hr)

/-- A packet's decoding is determined by its command word and the bits that command reads (R74, R75). -/
theorem decode_congr {p q : Packet} (hcmd : p.cmd = q.cmd)
    (h1 : p.cmd = 0x00000001#32 → p.op0 = q.op0 ∧ p.op1.setWidth 32 = q.op1.setWidth 32)
    (h2 : p.cmd = 0x00000002#32 →
      p.op0.setWidth 32 = q.op0.setWidth 32 ∧ p.op1 = q.op1 ∧ p.op2 = q.op2 ∧ p.op3 = q.op3)
    (h3 : p.cmd = 0x00000003#32 → p.op0 = q.op0) : decode p = decode q := by
  rcases commandWord_cases p.cmd with hc | hc | hc | hc | ⟨hc, hr⟩
  · obtain ⟨hfs, hosr⟩ := h1 hc
    rw [decode_configure hc, decode_configure (hcmd ▸ hc), hfs, i32_congr hosr]
  · obtain ⟨hratio, hfc, hmas, hfsens⟩ := h2 hc
    rw [decode_initRun hc, decode_initRun (hcmd ▸ hc), i32_congr hratio, hfc, hmas, hfsens]
  · rw [decode_processSample hc, decode_processSample (hcmd ▸ hc), h3 hc]
  · rw [decode_unassigned hc, decode_unassigned (hcmd ▸ hc)]
  · rw [decode_reserved hc hr, decode_reserved (hcmd ▸ hc) (hcmd ▸ hr)]

/-- Settles O4: a packet is served by what it decodes to. -/
theorem ignoredBitsHaveNoEffect : Obligations.IgnoredBitsHaveNoEffect := by
  intro p q s hcmd h1 h2 h3
  rw [servePacket, decode_congr hcmd h1 h2 h3, servePacket]

/-! ### Worked packets and lines (R83, R85) -/

/-- Settles O5: each packet has the command word of its case, and its operands are read. -/
theorem workedEncodingsDecode : Obligations.WorkedEncodingsDecode :=
  ⟨decode_configure rfl, decode_initRun rfl, decode_processSample rfl, decode_configure rfl,
    decode_reserved (by decide) (by decide)⟩

/-- Settles O7, by running the assembler on each line. -/
theorem workedLinesAssemble : Obligations.WorkedLinesAssemble := by
  unfold Obligations.WorkedLinesAssemble
  decide +kernel

/-! ### The answer to a packet (R72, R73, R76, R77, R204) -/

/-- A step that finds an illegal packet adds its response and takes the packet off the port; ERR is 4. -/
theorem step_of_illegal {s : State} {p : Packet} {rest : List HostEvent} {c : Nat}
    (hin : s.inputs = .command p :: rest) (hdec : decode p = .illegal c) (hc : c < 16) :
    step s = .next { s with
      inputs := rest
      responses := s.responses ++ [⟨BitVec.ofNat 32 (4 + 16 * c + 256 * stateNumber s.block.state), 0, 0⟩] } := by
  have hstatus := errStatus_eq ⟨.illegalCommand, c⟩ s.block.state hc
  rw [errNumber] at hstatus
  rw [step_of_command hin, servePacket_of_illegal hdec, ← hstatus]
  rfl

/-- Settles O9, one clause for each cause. -/
theorem illegalPacketIsAnsweredAndChangesNothing : Obligations.IllegalPacketIsAnsweredAndChangesNothing :=
  fun _ _ _ hin =>
    ⟨fun h => step_of_illegal hin (decode_unassigned h) (by decide),
      fun h hr => step_of_illegal hin (decode_reserved h hr) (by decide)⟩

/-- The fields of STATUS on an answer in a lifecycle state (R76, R77). -/
def StatusOk (w : Word32) (st : Lifecycle) : Prop :=
  (w.extractLsb' 0 4).toNat ≤ 4 ∧ (w.extractLsb' 0 4 = 0#4 → w.extractLsb' 4 4 = 0#4) ∧
  (w.extractLsb' 8 2).toNat = stateNumber st ∧ w.extractLsb' 10 22 = 0#22

theorem statusOk_errStatus (e : Err) (st : Lifecycle) : StatusOk (errStatus e st) st := by
  refine ⟨?_, fun h => absurd h (errStatus_err_ne_zero e st), ?_, statusWord_reserved _ _ _⟩
  · rw [errStatus, statusWord_err]
    cases e.code <;> decide
  · rw [errStatus_state, (stateField_toNat st).1]

theorem statusOk_okStatus (st : Lifecycle) : StatusOk (okStatus st) st := by
  refine ⟨?_, fun _ => statusWord_cause _ _ _, ?_, statusWord_reserved _ _ _⟩
  · rw [okStatus_err]
    decide
  · rw [okStatus_state, (stateField_toNat st).1]

/-- Settles O28: an error and a completion each add one response, and both STATUS words are sound. -/
theorem everyPacketGetsOneResponse : Obligations.EveryPacketGetsOneResponse := by
  intro s t p h
  rcases servePacket_next_cases h with ⟨e, rfl⟩ | ⟨i, -, hc⟩
  · exact ⟨errResponse e s.block.state, raise_responses e s, statusOk_errStatus e s.block.state⟩
  · obtain ⟨res0, res1, hres⟩ := hc.responses
    exact ⟨okResponse t.block.state res0 res1, hres, statusOk_okStatus t.block.state⟩

end Sys2Proof.Machine

/-! ## The local-oscillator tables and the mixer (R100, R101, R102, R104) -/

namespace Sys2Proof.Machine

/-! ### A product with one or its negation is exact -/

/-- A value that is not a NaN, times a value of magnitude one, keeps its magnitude: nothing is rounded. -/
theorem fmul_of_magBits_one (n : Nat) {x u : F64} (hx : isNaN x = false) (hu : magBits u = magBits posOne) :
    fmul ieeeArith n x u = pack (signXor x u) (magBits x) := by
  have hfu : isFinite u = true := by rw [isFinite_iff, hu]; decide
  have hzu : isZero u = false := by rw [isZero, hu]; decide
  rcases Nat.lt_or_ge (magBits x) infMag with hfin | hinf
  · rw [fmul_of_finite n ((isFinite_iff x).mpr hfin) hfu, hu, unitsOf_one, roundMag_unitsOf hfin.le scale_pos]
  · have hle : magBits x ≤ infMag := by simpa [isNaN] using hx
    have heq : magBits x = infMag := hle.antisymm hinf
    rw [fmul_inf n (.inl ⟨(isInf_iff x).mpr heq, isNaN_of_isFinite hfu, hzu⟩), heq]

theorem fmul_posOne (n : Nat) {x : F64} (hx : isNaN x = false) : fmul ieeeArith n x posOne = x := by
  rw [fmul_of_magBits_one n hx rfl, signXor_eq_xor, show signBit posOne = false by decide, Bool.xor_false,
    pack_signBit_magBits]

theorem fmul_negOne (n : Nat) {x : F64} (hx : isNaN x = false) : fmul ieeeArith n x negOne = fneg x := by
  rw [fmul_of_magBits_one n hx (by decide), signXor_eq_xor, show signBit negOne = true by decide, Bool.xor_true,
    ← signBit_fneg, ← magBits_fneg, pack_signBit_magBits]

/-- The product with a table entry: `+1` where `c` holds, `-1` elsewhere. -/
theorem fmul_ite_one (n : Nat) {x : F64} (hx : isNaN x = false) (c : Prop) [Decidable c] :
    fmul ieeeArith n x (if c then posOne else negOne) = if c then x else fneg x := by
  rw [apply_ite (fmul ieeeArith n x), fmul_posOne n hx, fmul_negOne n hx]

theorem mix_eq (p : Params) (n : Nat) (x : F64) (b : Block) (k : Nat) :
    mix p n x b k =
      (fmul (arithOf p) n x (if k < b.period / 2 then posOne else negOne),
       fmul (arithOf p) (n + 1) x (if k < b.quarter ∨ k ≥ 3 * b.quarter then posOne else negOne)) := rfl

/-- Settles O42: each entry is one or its negation, so a product with it is exact. -/
theorem mixerIsExact : Obligations.MixerIsExact := by
  refine fun p n x b k => ⟨mix_eq p n x b k, fun hp hx => ?_, fun hp hx => ?_⟩
  · rw [mix_eq, arithOf_binary64 hp, fmul_ite_one n hx, fmul_ite_one (n + 1) hx]
  · rw [mix_eq, arithOf_binary64 hp, fmul_of_nan n (.inl hx), fmul_of_nan (n + 1) (.inl hx)]
    exact ⟨isNaN_someNaN n, isNaN_someNaN (n + 1)⟩

/-! ### The halves and quarters of a period of `4 * q` -/

section
variable {q k : Nat}

theorem loSine_first_half (h : k < 2 * q) : loSine (4 * q) k = posOne := if_pos (by omega)

theorem loSine_second_half (h : 2 * q ≤ k) : loSine (4 * q) k = negOne := if_neg (by omega)

theorem loCos_first_quarter (h : k < q) : loCos q k = posOne := if_pos (.inl h)

theorem loCos_middle_half (hlo : q ≤ k) (hhi : k < 3 * q) : loCos q k = negOne := if_neg (by omega)

theorem loCos_last_quarter (h : 3 * q ≤ k) : loCos q k = posOne := if_pos (.inr h)

/-- The cosine is the sine a quarter of a period on; in the last quarter the index wraps. -/
theorem loCos_eq_loSine_shifted (hk : k < 4 * q) : loCos q k = loSine (4 * q) ((k + q) % (4 * q)) := by
  rcases Nat.lt_or_ge k (3 * q) with hlt | hge
  · rw [Nat.mod_eq_of_lt (by omega)]
    rcases Nat.lt_or_ge k q with hq | hq
    · rw [loCos_first_quarter hq, loSine_first_half (by omega)]
    · rw [loCos_middle_half hq hlt, loSine_second_half (by omega)]
  · rw [Nat.mod_eq_sub_mod (by omega), Nat.mod_eq_of_lt (by omega), loCos_last_quarter hge,
      loSine_first_half (by omega)]

end

/-! ### A table with one run of `-1` as long as half a period sums to zero -/

/-- How many numbers below `n` lie from `a` on and below `b`. -/
theorem countP_range_between (a b n : Nat) :
    (List.range n).countP (fun k => a ≤ k ∧ k < b) = min n b - a := by
  induction n with
  | zero => simp
  | succ n ih =>
    rw [List.range_succ, List.countP_append, ih, List.countP_singleton]
    split_ifs with h <;> simp only [decide_eq_true_eq] at h <;> omega

/-- A table of `4 * q` entries that is `-1` on the `2 * q` entries from `a` on and `+1` elsewhere. -/
theorem countP_table {f : Nat → F64} {a q : Nat} (ha : a + 2 * q ≤ 4 * q)
    (hneg : ∀ k < 4 * q, a ≤ k → k < a + 2 * q → f k = negOne)
    (hpos : ∀ k < 4 * q, k < a ∨ a + 2 * q ≤ k → f k = posOne) :
    (List.range (4 * q)).countP (fun k => f k = posOne) = 2 * q ∧
    (List.range (4 * q)).countP (fun k => f k = negOne) = 2 * q := by
  have hne : posOne ≠ negOne := by decide
  have hiff : ∀ k < 4 * q, (f k = negOne ↔ a ≤ k ∧ k < a + 2 * q) ∧ (f k = posOne ↔ ¬ f k = negOne) := by
    intro k hk
    by_cases h : a ≤ k ∧ k < a + 2 * q
    · simp [hneg k hk h.1 h.2, h, hne.symm]
    · simp [hpos k hk (by omega), h, hne]
  have hcount : (List.range (4 * q)).countP (fun k => f k = negOne) = 2 * q := by
    rw [List.countP_congr (q := fun k => decide (a ≤ k ∧ k < a + 2 * q))
      (by simpa using fun k hk => (hiff k hk).1), countP_range_between]
    omega
  have hlen := List.length_eq_countP_add_countP (fun k => decide (f k = negOne)) (l := List.range (4 * q))
  rw [List.length_range, hcount, ← List.countP_congr (p := fun k => decide (f k = posOne))
    (by simpa using fun k hk => (hiff k hk).2)] at hlen
  exact ⟨by omega, hcount⟩

/-- Settles O43: the run of `-1` is the second half of the sine table and the middle half of the cosine table. -/
theorem loTablesHaveTheirShape : Obligations.LoTablesHaveTheirShape := by
  intro q _
  obtain ⟨hsinPos, hsinNeg⟩ := countP_table (f := loSine (4 * q)) (a := 2 * q) (q := q) (by omega)
    (fun _ _ hlo _ => loSine_second_half hlo) (fun _ _ h => loSine_first_half (by omega))
  obtain ⟨hcosPos, hcosNeg⟩ := countP_table (f := loCos q) (a := q) (q := q) (by omega)
    (fun _ _ hlo hhi => loCos_middle_half hlo (by omega))
    (fun _ _ h => h.elim loCos_first_quarter fun h => loCos_last_quarter (by omega))
  exact ⟨fun k hk => ⟨loSine_first_half, loSine_second_half, loCos_first_quarter, loCos_middle_half,
    loCos_last_quarter, loCos_eq_loSine_shifted hk⟩, hsinPos, hsinNeg, hcosPos, hcosNeg⟩

end Sys2Proof.Machine

/-! ## A filter on zeros (R8, R120, R124) -/

namespace Sys2Proof.Machine

/-! ### The primitives on zeros -/

theorem isFinite_pack_zero (s : Bool) : isFinite (pack s 0) = true := by cases s <;> decide

theorem fneg_pack_zero (s : Bool) : fneg (pack s 0) = pack (!s) 0 := by cases s <;> decide

theorem signedUnits_pack_zero (s : Bool) : signedUnits (pack s 0) = 0 := by
  rw [← Int.natAbs_eq_zero, natAbs_signedUnits, magBits_pack s (by decide), unitsOf_zero]

/-- A sum of zeros is `-0.0` only when both are. -/
theorem addFinite_pack_zero (s t : Bool) : addFinite (pack s 0) (pack t 0) = pack (s && t) 0 := by
  simp [addFinite, signedUnits_pack_zero]

theorem fadd_pack_zero (n : Nat) (s t : Bool) :
    fadd ieeeArith n (pack s 0) (pack t 0) = pack (s && t) 0 := by
  rw [fadd_of_finite n (isFinite_pack_zero s) (isFinite_pack_zero t), addFinite_pack_zero]

theorem fsub_pack_zero (n : Nat) (s t : Bool) :
    fsub ieeeArith n (pack s 0) (pack t 0) = pack (s && !t) 0 := by
  rw [fsub_eq_fadd_fneg, fneg_pack_zero, fadd_pack_zero]

/-- A zero times a coefficient is a zero with the product of the signs. -/
theorem fmul_pack_zero (n : Nat) (s : Bool) {c : F64} (hc : isFinite c = true) :
    fmul ieeeArith n (pack s 0) c = pack (s ^^ signBit c) 0 := by
  rw [fmul_zero_finite n (magBits_pack s (by decide)) hc, signXor_eq_xor, signBit_pack s (by decide)]

/-! ### A step of the filter from zeros -/

/-- A filter whose registers are zeros with these signs. -/
def signedZeroFilter (inNeg outNeg : Bool) : Filter := { bufIn := pack inNeg 0, bufOut := pack outNeg 0 }

theorem filter_zero_eq : Filter.zero = signedZeroFilter false false := rfl

/-- On `+0.0` the registers stay zeros, and only the signs move: `-0.0` comes out exactly where `B0` and the held
`bufIn` are negative and the feedback product is not. -/
theorem iirProcess_signedZeroFilter {p : Params} (n : Nat) (inNeg outNeg : Bool) (hv : validParams p = true)
    (hp : p.primitives = .binary64) :
    iirProcess p n (signedZeroFilter inNeg outNeg) posZero =
      signedZeroFilter (signBit p.b1) (signBit p.b0 && inNeg && !(outNeg ^^ signBit p.a1)) := by
  obtain ⟨-, -, hb0, hb1, ha1, -⟩ := (validParams_iff p).mp hv
  have hzero : posZero = pack false 0 := rfl
  simp only [iirProcess, iirAcc, signedZeroFilter, arithOf_binary64 hp, hzero, fmul_pack_zero _ _ hb0,
    fmul_pack_zero _ _ hb1, fmul_pack_zero _ _ ha1, fadd_pack_zero, fsub_pack_zero, Bool.false_xor]

/-- Settles O44: with `B1` not negative the zero filter is a fixed point of the step, whatever the
sign of `B0`. -/
theorem zeroInputKeepsTheZeroFilter : Obligations.ZeroInputKeepsTheZeroFilter := by
  intro p n k hv hp _ hb1
  refine Function.iterate_fixed ?_ k
  rw [filter_zero_eq, iirProcess_signedZeroFilter n false false hv hp, hb1, Bool.and_false, Bool.false_and]

/-- Coefficients that R6 admits, with `B0` and `B1` negative and `A1` positive: `-1.0`, `-1.0` and `0.5`. -/
def negativeNumerator : Params :=
  { maxDelay := 1, b0 := negOne, b1 := negOne, a1 := 0x3fe0000000000000#64, primitives := .binary64 }

theorem validParams_negativeNumerator : validParams negativeNumerator = true := by decide

/-- Refutes O45: the first step leaves `-0.0` in `bufIn`, and the second one gives `-0.0 + -0.0 - +0.0 = -0.0`. -/
theorem not_zeroInputGivesZeroForAnyCoefficients : ¬ Obligations.ZeroInputGivesZeroForAnyCoefficients := by
  intro h
  have hout := h negativeNumerator 0 2 validParams_negativeNumerator rfl
  have hstep := fun s t => iirProcess_signedZeroFilter 0 s t validParams_negativeNumerator rfl
  rw [filter_zero_eq, Function.iterate_succ_apply, Function.iterate_one, hstep, hstep] at hout
  exact absurd hout (by decide)

end Sys2Proof.Machine

/-! ## The age of a delayed pair (R140, R142) -/

namespace Sys2Proof.Machine

/-! ### The delay line as a queue -/

/-- The pair that `j` more samples bring to `DLY_IDX`: pair 0 is the oldest, pair `DELAY - 1` the newest. -/
def linePair (b : Block) (j : Nat) : F64 × F64 := dlRead b ((b.dlyIdx + j) % b.delay)

theorem linePair_zero {b : Block} (h : b.dlyIdx < b.delay) : linePair b 0 = dlRead b b.dlyIdx := by
  rw [linePair, Nat.add_zero, Nat.mod_eq_of_lt h]

/-- Around a circle of `d` entries fewer than `d` steps do not lead back. -/
theorem add_mod_ne_self {i j d : Nat} (hi : i < d) (hj : j < d) (hpos : 0 < j) : (i + j) % d ≠ i := by
  intro h
  have hmod : i + j ≡ i + 0 [MOD d] := h.trans (Nat.mod_eq_of_lt hi).symm
  have hzero : j = 0 := (Nat.ModEq.add_left_cancel' i hmod).eq_of_lt_of_lt hj hi.pos
  omega

/-- `DLY_IDX` moves by one in a sample, so pair `j` after it has the index that pair `j + 1` had before. -/
theorem linePair_samplePipeline (p : Params) (n : Nat) (x : F64) (b : Block) (j : Nat) :
    linePair (samplePipeline p n x b) j = dlRead (samplePipeline p n x b) ((b.dlyIdx + (j + 1)) % b.delay) := by
  rw [linePair, samplePipeline_dlyIdx, samplePipeline_delay, Nat.mod_add_mod, Nat.add_assoc, Nat.add_comm 1]

/-- A sample writes over the oldest pair only, and every other pair moves one place towards the oldest. -/
theorem linePair_samplePipeline_of_lt {b : Block} {j : Nat} (hdly : b.dlyIdx < b.delay) (hj : j + 1 < b.delay)
    (p : Params) (n : Nat) (x : F64) : linePair (samplePipeline p n x b) j = linePair b (j + 1) := by
  have hne : (b.dlyIdx + (j + 1)) % b.delay ≠ b.dlyIdx := add_mod_ne_self hdly hj j.succ_pos
  rw [linePair_samplePipeline, linePair, dlRead, dlRead, samplePipeline_iBuf, samplePipeline_qBuf,
    Memory.read_write_other hne, Memory.read_write_other hne]

/-- The newest pair after a sample is the pair of its filter outputs. -/
theorem linePair_samplePipeline_newest {b : Block} {j : Nat} (hdly : b.dlyIdx < b.delay) (hj : j + 1 = b.delay)
    (hwf : BuffersWf b) (p : Params) (n : Nat) (x : F64) :
    linePair (samplePipeline p n x b) j
      = ((samplePipeline p n x b).fI.bufOut, (samplePipeline p n x b).fQ.bufOut) := by
  rw [linePair_samplePipeline, hj, Nat.add_mod_right, Nat.mod_eq_of_lt hdly, dlRead, samplePipeline_iBuf,
    samplePipeline_qBuf, Memory.read_write_same _ _ hwf.1, Memory.read_write_same _ _ hwf.2, samplePipeline_fI,
    samplePipeline_fQ]

/-- INIT_RUN leaves a line of zeros (R143, R167). -/
theorem linePair_initRunBlock (d : Nat) (pd : F64) (ratio : Int) (fc mas fsens : F64) (b : Block) (j : Nat) :
    linePair (initRunBlock d pd ratio fc mas fsens b) j = (posZero, posZero) := rfl

/-- In RUNNING the buffers are in canonical form (R35). -/
theorem StateInv.buffersWf {s : State} (h : StateInv s) (hrun : s.block.state = .running) : BuffersWf s.block := by
  obtain ⟨-, -, -, -, -, -, -, -, -, hI, hQ⟩ := (blockInv_running hrun).mp h.2
  exact ⟨hI.1, hQ.1⟩

/-! ### The queue through the packets of a run -/

/-- The first packets of a run are answered, keep the length of the line, and make every pair older by their samples. -/
theorem runPackets_linePair {ps : List Packet} (qs : List Packet) {s : State} (h : StateInv s)
    (hrun : s.block.state = .running) (hstays : staysInRun (ps ++ qs) s = true) :
    ∃ t, runPackets ps s = .next t ∧ StateInv t ∧ t.block.state = .running ∧ staysInRun qs t = true ∧
      t.block.delay = s.block.delay ∧
      ∀ j, j + ps.countP isSample < s.block.delay → linePair t.block j = linePair s.block (j + ps.countP isSample) := by
  induction ps generalizing s with
  | nil => exact ⟨s, rfl, h, hrun, hstays, rfl, fun _ _ => rfl⟩
  | cons p ps ih =>
    obtain ⟨t, ht, hps, hcase⟩ := servePacket_of_staysInRun h hrun hstays
    have hinv := servePacket_stateInv h ht
    rw [runPackets_cons ps ht]
    rcases hcase with ⟨hs, hblock⟩ | ⟨hs, x, -, hblock⟩
    · rw [List.countP_cons_of_neg (by simp [hs]), ← hblock]
      exact ih hinv (by rw [hblock, hrun]) hps
    · obtain ⟨v, hv, hvinv, hvrun, hqs, hdelay, hpair⟩ := ih hinv (by rw [hblock, samplePipeline_state, hrun]) hps
      rw [hblock, samplePipeline_delay] at hdelay hpair
      refine ⟨v, hv, hvinv, hvrun, hqs, hdelay, fun j hj => ?_⟩
      rw [List.countP_cons_of_pos hs] at hj ⊢
      rw [hpair j (by omega), linePair_samplePipeline_of_lt (h.indices_lt hrun).2 (by omega), Nat.add_assoc]

/-- From a line of zeros, fewer than `DELAY` samples leave a pair of zeros to be read. -/
theorem dlRead_of_few_samples {ps : List Packet} {s : State} (h : StateInv s) (hrun : s.block.state = .running)
    (hzero : ∀ j, linePair s.block j = (posZero, posZero)) (hcount : ps.countP isSample < s.block.delay)
    (hstays : staysInRun ps s = true) :
    ∃ t, runPackets ps s = .next t ∧ dlRead t.block t.block.dlyIdx = (posZero, posZero) := by
  obtain ⟨t, ht, hinv, htrun, -, -, hpair⟩ := runPackets_linePair [] h hrun (by rwa [List.append_nil])
  exact ⟨t, ht, by rw [← linePair_zero (hinv.indices_lt htrun).2, hpair 0 (by omega), hzero]⟩

/-- The pair that a sample writes is the one to be read after `DELAY - 1` more samples. -/
theorem dlRead_of_delay_samples {ps qs : List Packet} {p : Packet} {s : State} (h : StateInv s)
    (hrun : s.block.state = .running) (hp : isSample p = true) (hcount : qs.countP isSample + 1 = s.block.delay)
    (hstays : staysInRun (ps ++ p :: qs) s = true) :
    ∃ t v, runPackets (ps ++ [p]) s = .next t ∧ runPackets (ps ++ p :: qs) s = .next v ∧
      dlRead v.block v.block.dlyIdx = (t.block.fI.bufOut, t.block.fQ.bufOut) := by
  obtain ⟨m, hm, hminv, hmrun, hpqs, hdelay, -⟩ := runPackets_linePair (p :: qs) h hrun hstays
  obtain ⟨t, ht, hqs, ⟨hns, -⟩ | ⟨-, x, -, hblock⟩⟩ := servePacket_of_staysInRun hminv hmrun hpqs
  · cases hp.symm.trans hns
  have htinv := servePacket_stateInv hminv ht
  have htrun : t.block.state = .running := by rw [hblock, samplePipeline_state, hmrun]
  have htdelay : t.block.delay = m.block.delay := by rw [hblock, samplePipeline_delay]
  obtain ⟨v, hv, hvinv, hvrun, -, -, hpair⟩ := runPackets_linePair [] htinv htrun (by rwa [List.append_nil])
  refine ⟨t, v, by rw [runPackets_append _ hm, runPackets_cons _ ht, runPackets_nil],
    by rw [runPackets_append _ hm, runPackets_cons _ ht, hv], ?_⟩
  calc dlRead v.block v.block.dlyIdx
    _ = linePair v.block 0 := (linePair_zero (hvinv.indices_lt hvrun).2).symm
    _ = linePair t.block (qs.countP isSample) := by rw [hpair 0 (by omega), Nat.zero_add]
    _ = (t.block.fI.bufOut, t.block.fQ.bufOut) := by
      rw [hblock]
      exact linePair_samplePipeline_newest (hminv.indices_lt hmrun).2 (hcount.trans hdelay.symm)
        (hminv.buffersWf hmrun) ..

/-- Settles O40: INIT_RUN leaves a queue of zeros, and each sample takes the oldest pair and adds its own. -/
theorem delayedPairHasAgeDelay : Obligations.DelayedPairHasAgeDelay := by
  intro u s r ratio fc mas fsens hu hratio hexec hr hstatus
  have hs : StateInv s := exec_stateInv (i := .initRun ratio fc mas fsens) hratio hu hexec
  obtain ⟨hrun, hzero⟩ : s.block.state = .running ∧ ∀ j, linePair s.block j = (posZero, posZero) := by
    cases Completes.of_okStatus_running hexec hr hstatus
    exact ⟨rfl, fun _ => linePair_initRunBlock ..⟩
  exact ⟨fun ps qs p => dlRead_of_delay_samples hs hrun, fun ps => dlRead_of_few_samples hs hrun hzero⟩

end Sys2Proof.Machine

/-! ## The discriminator on equal pairs (R145) -/

namespace Sys2Proof.Machine

/-- The product of finite values does not depend on their order, nor on the draw. -/
theorem fmul_comm_of_finite (n m : Nat) {a b : F64} (ha : isFinite a = true) (hb : isFinite b = true) :
    fmul ieeeArith n a b = fmul ieeeArith m b a := by
  rw [fmul_of_finite n ha hb, fmul_of_finite m hb ha, Nat.mul_comm, signXor_eq_xor, signXor_eq_xor, Bool.xor_comm]

/-- A finite value less itself is `+0.0`, whatever its sign. -/
theorem fsub_self_of_finite (n : Nat) {a : F64} (h : isFinite a = true) : fsub ieeeArith n a a = posZero := by
  rw [fsub_of_finite n h h, addFinite, signedUnits_fneg, add_neg_cancel, if_pos rfl, signBit_fneg, Bool.and_not_self]
  rfl

/-- An infinity less itself is some NaN. -/
theorem fsub_self_of_isInf (n : Nat) {a : F64} (h : isInf a = true) : fsub ieeeArith n a a = someNaN n := by
  rw [fsub_eq_fadd_fneg, fadd_inf_inf_opposite n h ((isInf_fneg a).trans h) (by simp)]

/-- On equal finite pairs the discriminator subtracts the product from itself. -/
theorem discriminate_self {p : Params} (n : Nat) {i q : F64} (hp : p.primitives = .binary64)
    (hi : isFinite i = true) (hq : isFinite q = true) :
    discriminate p n i q i q = fsub ieeeArith (n + 2) (fmul ieeeArith n i q) (fmul ieeeArith n i q) := by
  rw [discriminate, arithOf_binary64 hp, fmul_comm_of_finite (n + 1) n hq hi]

/-- Settles O46: a finite product less itself. -/
theorem equalPairsDiscriminateToZero : Obligations.EqualPairsDiscriminateToZero := by
  intro p n i q hp hi hq hprod
  rw [discriminate_self n hp hi hq, fsub_self_of_finite (n + 2) hprod]

/-- `2^1023`, a finite value whose square overflows. -/
def largePower : F64 := 0x7fe0000000000000#64

theorem isFinite_largePower : isFinite largePower = true := by decide

theorem isInf_square_largePower : isInf (fmul ieeeArith 0 largePower largePower) = true := by decide +kernel

/-- Refutes O47: for the pair `(2^1023, 2^1023)` both products are `+inf`, and their difference is a NaN. -/
theorem not_equalFinitePairsAlwaysDiscriminateToZero : ¬ Obligations.EqualFinitePairsAlwaysDiscriminateToZero := by
  intro h
  have hzero := h Config.params 0 largePower largePower rfl isFinite_largePower isFinite_largePower
  rw [discriminate_self 0 rfl isFinite_largePower isFinite_largePower,
    fsub_self_of_isInf 2 isInf_square_largePower] at hzero
  have hnan : isNaN posZero = true := hzero ▸ isNaN_someNaN 2
  exact absurd hnan (by decide)

end Sys2Proof.Machine

/-! ## The samples of a run and their answers (R171, R172) -/

namespace Sys2Proof.Machine

/-! ### A sample that is processed -/

/-- The block is in RUNNING with both indices in range: what a sample needs to be processed (R51, R52, R100). -/
structure InRun (b : Block) : Prop where
  running : b.state = .running
  loIdx_lt : b.loIdx < b.period
  dlyIdx_lt : b.dlyIdx < b.delay

theorem StateInv.inRun {s : State} (h : StateInv s) (hrun : s.block.state = .running) : InRun s.block :=
  ⟨hrun, (h.indices_lt hrun).1, (h.indices_lt hrun).2⟩

theorem InRun.samplePipeline {b : Block} (h : InRun b) (p : Params) (n : Nat) (x : F64) :
    InRun (samplePipeline p n x b) :=
  ⟨h.running, Nat.mod_lt _ (Nat.zero_lt_of_lt h.loIdx_lt), Nat.mod_lt _ (Nat.zero_lt_of_lt h.dlyIdx_lt)⟩

/-- The machine after a sample that is processed (R171). -/
def sampled (x : F64) (s : State) : State :=
  complete (samplePipeline s.params s.nanDraws x s.block) 20
    (bits64 (samplePipeline s.params s.nanDraws x s.block).fOut.bufOut) 0#64 s

@[simp] theorem sampled_block (x : F64) (s : State) :
    (sampled x s).block = samplePipeline s.params s.nanDraws x s.block := rfl

theorem InRun.exec_processSample {s : State} (h : InRun s.block) (x : F64) :
    exec (.processSample x) s = .next (sampled x s) :=
  exec_processSample_of_indices_lt h.running h.loIdx_lt h.dlyIdx_lt x

/-- A processed sample is answered with the success of RUNNING and the output filter's register (R171). -/
theorem InRun.sampled_responses {s : State} (h : InRun s.block) (x : F64) :
    (sampled x s).responses = s.responses ++ [⟨0x00000200#32, (sampled x s).block.fOut.bufOut, 0#64⟩] := by
  simp only [sampled, complete_responses, okResponse, samplePipeline_state, h.running, okStatus_running, bits64,
    complete_block]

/-! ### The packets of a run -/

theorem InRun.servePacket_next {s : State} (h : InRun s.block) (p : Packet) : ∃ t, servePacket p s = .next t := by
  rcases servePacket_cases p s with ⟨i, -, hp⟩ | ⟨c, -, hp⟩
  · rw [hp]
    cases i with
    | configure fs osr => rcases execConfigure_cases fs osr s with ⟨e, -, h'⟩ | ⟨-, h'⟩ <;> exact ⟨_, h'⟩
    | initRun ratio fc mas fsens =>
      rcases execInitRun_cases ratio fc mas fsens s with ⟨e, -, h'⟩ | ⟨d, -, h'⟩ <;> exact ⟨_, h'⟩
    | processSample x => exact ⟨_, h.exec_processSample x⟩
  · exact ⟨_, hp⟩

/-- The first packet of a run is a sample that is processed, or is answered by an error. -/
theorem InRun.servePacket_cases {p : Packet} {ps : List Packet} {s : State} (h : InRun s.block)
    (hstays : staysInRun (p :: ps) s = true) :
    (∃ e, isSample p = false ∧ servePacket p s = .next (raise e s) ∧ staysInRun ps (raise e s) = true) ∨
    (∃ x, decode p = .command (.processSample x) ∧ servePacket p s = .next (sampled x s) ∧
      staysInRun ps (sampled x s) = true) := by
  cases hs : isSample p with
  | true =>
    obtain ⟨x, hx⟩ := (isSample_iff p).mp hs
    have ht := (servePacket_of_command hx s).trans (h.exec_processSample x)
    exact .inr ⟨x, hx, ht, ((staysInRun_cons ht).mp hstays).2⟩
  | false =>
    obtain ⟨t, ht⟩ := h.servePacket_next p
    obtain ⟨hp, hps⟩ := (staysInRun_cons ht).mp hstays
    rcases servePacket_next_cases ht with ⟨e, rfl⟩ | ⟨i, -, hc⟩
    · exact .inl ⟨e, rfl, ht, hps⟩
    · simp [hs, hc.lastIsError] at hp

/-- From `s` every packet is answered, and each sample succeeds with an output that meets `Out`. -/
def AnswersSamples (Out : F64 → Prop) (ps : List Packet) (s : State) : Prop :=
  ∃ (t : State) (outs : List Response), runPackets ps s = .next t ∧ t.responses = s.responses ++ outs ∧
    outs.length = ps.length ∧
    ∀ c ∈ ps.zip outs, isSample c.1 = true → ∃ y, c.2 = ⟨0x00000200#32, y, 0#64⟩ ∧ Out y

theorem AnswersSamples.nil (Out : F64 → Prop) (s : State) : AnswersSamples Out [] s :=
  ⟨s, [], rfl, by simp, rfl, by simp⟩

theorem AnswersSamples.cons {Out : F64 → Prop} {p : Packet} {ps : List Packet} {s t : State} {r : Response}
    (hserve : servePacket p s = .next t) (hr : t.responses = s.responses ++ [r])
    (hout : isSample p = true → ∃ y, r = ⟨0x00000200#32, y, 0#64⟩ ∧ Out y) (h : AnswersSamples Out ps t) :
    AnswersSamples Out (p :: ps) s := by
  obtain ⟨v, outs, hv, hresp, hlen, hall⟩ := h
  refine ⟨v, r :: outs, by rw [runPackets_cons ps hserve, hv], by simp [hresp, hr], by simp [hlen], ?_⟩
  rw [List.zip_cons_cons, List.forall_mem_cons]
  exact ⟨hout, hall⟩

theorem AnswersSamples.cons_error {Out : F64 → Prop} {p : Packet} {ps : List Packet} {s : State} {e : Err}
    (hs : isSample p = false) (hserve : servePacket p s = .next (raise e s))
    (h : AnswersSamples Out ps (raise e s)) : AnswersSamples Out (p :: ps) s :=
  .cons hserve (raise_responses e s) (by simp [hs]) h

theorem AnswersSamples.cons_sample {Out : F64 → Prop} {p : Packet} {ps : List Packet} {s : State} {x : F64}
    (hrun : InRun s.block) (hserve : servePacket p s = .next (sampled x s))
    (hout : Out (sampled x s).block.fOut.bufOut) (h : AnswersSamples Out ps (sampled x s)) :
    AnswersSamples Out (p :: ps) s :=
  .cons hserve (hrun.sampled_responses x) (fun _ => ⟨_, rfl, hout⟩) h

/-- The induction over the packets of a run: a predicate of the state and the packets left to serve that errors keep,
and that samples keep while it gives them an output in `Out`, gives every sample of the run one. -/
theorem answersSamples_of_invariant {Inv : List Packet → State → Prop} {Out : F64 → Prop}
    (hinRun : ∀ {ps s}, Inv ps s → InRun s.block)
    (herror : ∀ {p ps s e}, isSample p = false → servePacket p s = .next (raise e s) → Inv (p :: ps) s →
      Inv ps (raise e s))
    (hsample : ∀ {p ps s x}, isSample p = true → servePacket p s = .next (sampled x s) → Inv (p :: ps) s →
      Inv ps (sampled x s) ∧ Out (sampled x s).block.fOut.bufOut)
    {ps : List Packet} {s : State} (h : Inv ps s) (hstays : staysInRun ps s = true) : AnswersSamples Out ps s := by
  induction ps generalizing s with
  | nil => exact .nil Out s
  | cons p ps ih =>
    rcases (hinRun h).servePacket_cases hstays with ⟨e, hs, hserve, hps⟩ | ⟨x, hx, hserve, hps⟩
    · exact .cons_error hs hserve (ih (herror hs hserve h) hps)
    · obtain ⟨hinv, hout⟩ := hsample ((isSample_iff p).mpr ⟨x, hx⟩) hserve h
      exact .cons_sample (hinRun h) hserve hout (ih hinv hps)

end Sys2Proof.Machine

/-! ## The first outputs of a run are zeros (R175) -/

namespace Sys2Proof.Machine

/-! ### The pipeline on a delayed pair of zeros -/

theorem orderKey_posZero : orderKey posZero = 0 := by decide

theorem orderKey_lt_of_fgt {a b : F64} (h : fgt a b = true) : orderKey b < orderKey a := by
  simp only [fgt, Bool.and_eq_true, decide_eq_true_eq] at h
  exact h.2

/-- A value below `+0.0` has its sign bit set. -/
theorem signBit_of_posZero_fgt {a : F64} (h : fgt posZero a = true) : signBit a = true := by
  have hkey := orderKey_lt_of_fgt h
  rw [orderKey_posZero, orderKey] at hkey
  by_contra hs
  rw [if_neg hs] at hkey
  omega

theorem isZero_pack {neg : Bool} {m : Nat} (h : m < 2 ^ 63) : isZero (pack neg m) = true ↔ m = 0 := by
  rw [isZero_iff, magBits_pack neg h]

/-- A finite value times `+0.0` is a zero of its sign. -/
theorem fmul_posZero (n : Nat) {a : F64} (ha : isFinite a = true) :
    fmul ieeeArith n a posZero = pack (signBit a) 0 := by
  rw [fmul_comm_of_finite n n ha (by decide), show posZero = pack false 0 from rfl, fmul_pack_zero n false ha,
    Bool.false_xor]

/-- A finite pair against a delayed pair of zeros discriminates to a zero (R145). -/
theorem discriminate_posZero {p : Params} (n : Nat) {i q : F64} (hp : p.primitives = .binary64)
    (hi : isFinite i = true) (hq : isFinite q = true) :
    discriminate p n i q posZero posZero = pack (signBit i && !signBit q) 0 := by
  simp only [discriminate, arithOf_binary64 hp, fmul_posZero _ hi, fmul_posZero _ hq, fsub_pack_zero]

/-- A filter of zeros on a zero stays one; it gives `-0.0` only where the feedback product is `+0.0`. -/
theorem iirProcess_zeros {p : Params} (n : Nat) (inNeg outNeg neg : Bool) (hv : validParams p = true)
    (hp : p.primitives = .binary64) :
    iirProcess p n (signedZeroFilter inNeg outNeg) (pack neg 0) =
      signedZeroFilter (neg ^^ signBit p.b1) ((neg ^^ signBit p.b0) && inNeg && !(outNeg ^^ signBit p.a1)) := by
  obtain ⟨-, -, hb0, hb1, ha1, -⟩ := (validParams_iff p).mp hv
  simp only [iirProcess, iirAcc, signedZeroFilter, arithOf_binary64 hp, fmul_pack_zero _ _ hb0,
    fmul_pack_zero _ _ hb1, fmul_pack_zero _ _ ha1, fadd_pack_zero, fsub_pack_zero]

/-- Both registers are zeros, and `bufOut` is `+0.0` where `A1` is negative. -/
def QuietFilter (p : Params) (f : Filter) : Prop :=
  ∃ inNeg outNeg, f = signedZeroFilter inNeg outNeg ∧ (signBit p.a1 = true → outNeg = false)

theorem quietFilter_zero (p : Params) : QuietFilter p Filter.zero := ⟨false, false, filter_zero_eq, fun _ => rfl⟩

/-- A negative `A1` turns a held `+0.0` into a `-0.0` that is subtracted, so `+0.0` comes out again. -/
theorem QuietFilter.iirProcess {p : Params} {f : Filter} (h : QuietFilter p f) (n : Nat) (neg : Bool)
    (hv : validParams p = true) (hp : p.primitives = .binary64) : QuietFilter p (iirProcess p n f (pack neg 0)) := by
  obtain ⟨inNeg, outNeg, rfl, hout⟩ := h
  refine ⟨_, _, iirProcess_zeros n inNeg outNeg neg hv hp, fun ha1 => ?_⟩
  rw [hout ha1, ha1, Bool.false_xor, Bool.not_true, Bool.and_false]

theorem QuietFilter.bufOut {p : Params} {f : Filter} (h : QuietFilter p f) :
    isZero f.bufOut = true ∧ (fgt posZero p.a1 = true → f.bufOut = posZero) := by
  obtain ⟨inNeg, outNeg, rfl, hout⟩ := h
  refine ⟨(isZero_pack (by decide)).mpr rfl, fun ha1 => ?_⟩
  rw [signedZeroFilter, hout (signBit_of_posZero_fgt ha1)]
  rfl

/-- A sample that reads a pair of zeros, with finite I and Q filter outputs, leaves the output filter quiet. -/
theorem QuietFilter.samplePipeline {p : Params} {b : Block} (h : QuietFilter p b.fOut) (n : Nat) (x : F64)
    (hv : validParams p = true) (hp : p.primitives = .binary64)
    (hpair : dlRead b b.dlyIdx = (posZero, posZero))
    (hI : isFinite (samplePipeline p n x b).fI.bufOut = true)
    (hQ : isFinite (samplePipeline p n x b).fQ.bufOut = true) : QuietFilter p (samplePipeline p n x b).fOut := by
  rw [samplePipeline_fOut, hpair, ← samplePipeline_fI, ← samplePipeline_fQ, discriminate_posZero _ hp hI hQ]
  exact h.iirProcess _ _ hv hp

/-! ### The invariant of the first outputs -/

/-- After every packet of the run the I and Q filters hold finite values: the premise of R175. -/
def FiniteChannels (ps : List Packet) (s : State) : Prop :=
  ∀ (ys zs : List Packet) (v : State), ys ++ zs = ps → runPackets ys s = .next v →
    isFinite v.block.fI.bufOut = true ∧ isFinite v.block.fQ.bufOut = true

theorem FiniteChannels.now {ps : List Packet} {s : State} (h : FiniteChannels ps s) :
    isFinite s.block.fI.bufOut = true ∧ isFinite s.block.fQ.bufOut = true := h [] ps s rfl rfl

theorem FiniteChannels.tail {q : Packet} {ps : List Packet} {s t : State} (h : FiniteChannels (q :: ps) s)
    (hserve : servePacket q s = .next t) : FiniteChannels ps t := fun ys zs v happ hv =>
  h (q :: ys) zs v (by rw [List.cons_append, happ]) (by rw [runPackets_cons ys hserve, hv])

/-- Before each of the first `DELAY` samples of a run built with the parameters `p`: the pairs that the samples among
the packets `ps` will read are zeros, and the output filter is quiet. -/
structure FirstOutputs (p : Params) (ps : List Packet) (s : State) : Prop where
  inv : StateInv s
  params : s.params = p
  running : s.block.state = .running
  quiet : QuietFilter p s.block.fOut
  few : ps.countP isSample ≤ s.block.delay
  line : ∀ j < ps.countP isSample, linePair s.block j = (posZero, posZero)
  finite : FiniteChannels ps s

section
variable {p : Params} {q : Packet} {ps : List Packet} {s : State}

theorem FirstOutputs.inRun (h : FirstOutputs p ps s) : InRun s.block := h.inv.inRun h.running

theorem FirstOutputs.error {e : Err} (h : FirstOutputs p (q :: ps) s) (hs : isSample q = false)
    (hserve : servePacket q s = .next (raise e s)) : FirstOutputs p ps (raise e s) := by
  have hcount : (q :: ps).countP isSample = ps.countP isSample := List.countP_cons_of_neg (by simp [hs])
  exact ⟨h.inv, h.params, h.running, h.quiet, hcount ▸ h.few, hcount ▸ h.line, h.finite.tail hserve⟩

/-- A sample takes the oldest of the zeros, and the line after it begins with the others. -/
theorem FirstOutputs.sample {x : F64} (h : FirstOutputs p (q :: ps) s) (hp : p.primitives = .binary64)
    (hs : isSample q = true) (hserve : servePacket q s = .next (sampled x s)) : FirstOutputs p ps (sampled x s) := by
  have hcount : (q :: ps).countP isSample = ps.countP isSample + 1 := List.countP_cons_of_pos hs
  have hdly := h.inRun.dlyIdx_lt
  have hfew := hcount ▸ h.few
  have hline := hcount ▸ h.line
  obtain rfl := h.params
  obtain ⟨hI, hQ⟩ := (h.finite.tail hserve).now
  refine ⟨servePacket_stateInv h.inv hserve, rfl, h.running, ?_, (Nat.le_succ _).trans hfew, fun j hj => ?_,
    h.finite.tail hserve⟩
  · exact h.quiet.samplePipeline _ _ h.inv.1 hp (by rw [← linePair_zero hdly, hline 0 (Nat.succ_pos _)]) hI hQ
  · rw [sampled_block, linePair_samplePipeline_of_lt hdly (by omega), hline (j + 1) (by omega)]

/-- INIT_RUN leaves a quiet output filter and a line of zeros (R123, R143, R167). -/
theorem Completes.firstOutputs {u : State} {ratio : Int} {fc mas fsens : F64}
    (hc : Completes u (.initRun ratio fc mas fsens) s) (hinv : StateInv s)
    (hfew : ps.countP isSample ≤ s.block.delay) (hfinite : FiniteChannels ps s) : FirstOutputs s.params ps s := by
  refine ⟨hinv, rfl, ?_, ?_, hfew, fun j _ => ?_, hfinite⟩ <;> cases hc
  · rfl
  · exact quietFilter_zero _
  · exact linePair_initRunBlock ..

theorem FirstOutputs.answersSamples (h : FirstOutputs p ps s) (hp : p.primitives = .binary64)
    (hstays : staysInRun ps s = true) :
    AnswersSamples (fun y => isZero y = true ∧ (fgt posZero p.a1 = true → y = posZero)) ps s :=
  answersSamples_of_invariant (Inv := FirstOutputs p) FirstOutputs.inRun (fun hq hserve h => h.error hq hserve)
    (fun hq hserve h => ⟨h.sample hp hq hserve, (h.sample hp hq hserve).quiet.bufOut⟩) h hstays

end

/-- Settles O41: until the line has gone round once every sample reads a pair of zeros, so the discriminator gives a
zero and the output filter keeps its zeros. -/
theorem firstDelayOutputsAreZero : Obligations.FirstDelayOutputsAreZero := by
  intro u s r ratio fc mas fsens ps hu hp hratio hexec hr hstatus hstays hfew hfinite
  have hs : StateInv s := exec_stateInv (i := .initRun ratio fc mas fsens) hratio hu hexec
  have hsp : s.params.primitives = .binary64 := by rw [exec_params hexec, hp]
  have hfirst := (Completes.of_okStatus_running hexec hr hstatus).firstOutputs hs hfew hfinite
  obtain ⟨t, outs, ht, hresp, hlen, hall⟩ := hfirst.answersSamples hsp hstays
  refine ⟨t, outs, ht, hresp, hlen, fun c hc hsc => ?_, fun ha1 c hc hsc => ?_⟩ <;>
    obtain ⟨y, hy, hzero, hpos⟩ := hall c hc hsc
  · rw [hy]
    exact ⟨rfl, hzero, rfl⟩
  · rw [hy]
    exact hpos ha1

end Sys2Proof.Machine

/-! ## NaNs and infinities poison a run (R173, R255) -/

namespace Sys2Proof.Machine

/-! ### Values that every primitive passes on -/

theorem isFinite_of_isNaN {a : F64} (h : isNaN a = true) : isFinite a = false := by
  rw [← Bool.not_eq_true]
  exact fun hf => by simp [isNaN_of_isFinite hf] at h

theorem isFinite_of_isInf {a : F64} (h : isInf a = true) : isFinite a = false := by
  rw [← Bool.not_eq_true]
  exact fun hf => by simp [isInf_of_isFinite hf] at h

/-- A value that is not finite is a NaN or an infinity. -/
theorem isNaN_or_isInf_of_not_isFinite {a : F64} (h : isFinite a = false) : isNaN a = true ∨ isInf a = true := by
  rw [← Bool.not_eq_true, isFinite_iff, Nat.not_lt] at h
  rw [isNaN_iff, isInf_iff]
  omega

theorem isFinite_someNaN (n : Nat) : isFinite (someNaN n) = false := isFinite_of_isNaN (isNaN_someNaN n)

/-- A sum with an operand that is not finite is an infinity among the operands, or a NaN. -/
theorem isFinite_fadd_of_not_isFinite (n : Nat) {a b : F64} (h : isFinite a = false ∨ isFinite b = false) :
    isFinite (fadd ieeeArith n a b) = false := by
  rw [fadd_eq, ieeeAdd]
  split_ifs with hnan ha hopp hb
  · exact isFinite_someNaN n
  · exact isFinite_someNaN n
  · exact isFinite_of_isInf ha
  · exact isFinite_of_isInf hb
  · rw [Bool.or_eq_true, not_or] at hnan
    rcases h with h | h <;> have := isNaN_or_isInf_of_not_isFinite h <;> tauto

/-- A product with an operand that is not finite is an infinity, or a NaN. -/
theorem isFinite_fmul_of_not_isFinite (n : Nat) {a b : F64} (h : isFinite a = false ∨ isFinite b = false) :
    isFinite (fmul ieeeArith n a b) = false := by
  rw [fmul_eq, ieeeMul]
  split_ifs with hnan hinf hzero
  · exact isFinite_someNaN n
  · exact isFinite_someNaN n
  · exact isFinite_of_isInf ((isInf_iff _).mpr (magBits_pack _ infMag_lt))
  · rw [Bool.or_eq_true, not_or] at hnan hinf
    rcases h with h | h <;> have := isNaN_or_isInf_of_not_isFinite h <;> tauto

/-- A class of values that a sum, a difference or a product belongs to as soon as one operand does. -/
structure Absorbing (P : F64 → Prop) : Prop where
  fneg : ∀ {a}, P a → P (fneg a)
  fadd : ∀ n {a b}, P a ∨ P b → P (fadd ieeeArith n a b)
  fmul : ∀ n {a b}, P a ∨ P b → P (fmul ieeeArith n a b)

theorem absorbing_isNaN : Absorbing (isNaN · = true) where
  fneg h := by rwa [isNaN_fneg]
  fadd n _ _ h := by rw [fadd_of_nan n h, isNaN_someNaN]
  fmul n _ _ h := by rw [fmul_of_nan n h, isNaN_someNaN]

theorem absorbing_not_isFinite : Absorbing (isFinite · = false) where
  fneg h := by rwa [isFinite_fneg]
  fadd n _ _ := isFinite_fadd_of_not_isFinite n
  fmul n _ _ := isFinite_fmul_of_not_isFinite n

/-! ### The pipeline passes them on -/

section
variable {P : F64 → Prop} (hP : Absorbing P)
include hP

theorem Absorbing.fsub (n : Nat) {a b : F64} (h : P a ∨ P b) : P (fsub ieeeArith n a b) := by
  rw [fsub_eq_fadd_fneg]
  exact hP.fadd n (h.imp_right hP.fneg)

variable {p : Params} (hp : p.primitives = .binary64) (n : Nat)
include hp

theorem Absorbing.mix {x : F64} (hx : P x) (b : Block) (k : Nat) : P (mix p n x b k).1 ∧ P (mix p n x b k).2 := by
  rw [mix_eq, arithOf_binary64 hp]
  exact ⟨hP.fmul _ (.inl hx), hP.fmul _ (.inl hx)⟩

/-- A filter passes on its input and the output it holds. -/
theorem Absorbing.iirProcess {f : Filter} {x : F64} (h : P x ∨ P f.bufOut) : P (iirProcess p n f x).bufOut := by
  rw [iirProcess_bufOut, iirAcc, arithOf_binary64 hp]
  exact hP.fsub _ (h.imp (fun hx => hP.fadd _ (.inl (hP.fmul _ (.inl hx)))) fun hf => hP.fmul _ (.inl hf))

theorem Absorbing.discriminate {i q : F64} (h : P i ∨ P q) (iD qD : F64) : P (discriminate p n i q iD qD) := by
  rw [Machine.discriminate, arithOf_binary64 hp]
  exact hP.fsub _ (h.imp (fun hi => hP.fmul _ (.inl hi)) fun hq => hP.fmul _ (.inl hq))

variable {x : F64} {b : Block}

theorem Absorbing.samplePipeline_fI (h : P x ∨ P b.fI.bufOut) : P (samplePipeline p n x b).fI.bufOut :=
  hP.iirProcess hp _ (h.imp_left fun hx => (hP.mix hp n hx b b.loIdx).1)

theorem Absorbing.samplePipeline_fQ (h : P x ∨ P b.fQ.bufOut) : P (samplePipeline p n x b).fQ.bufOut :=
  hP.iirProcess hp _ (h.imp_left fun hx => (hP.mix hp n hx b b.loIdx).2)

/-- The output passes on the sample and what the three filters hold, through the discriminator or by feedback. -/
theorem Absorbing.samplePipeline_fOut (h : P x ∨ P b.fI.bufOut ∨ P b.fQ.bufOut ∨ P b.fOut.bufOut) :
    P (samplePipeline p n x b).fOut.bufOut := by
  refine hP.iirProcess hp _ ?_
  rcases h with hx | hI | hQ | hOut
  · exact .inl (hP.discriminate hp _ (.inl (hP.samplePipeline_fI hp n (.inl hx))) _ _)
  · exact .inl (hP.discriminate hp _ (.inl (hP.samplePipeline_fI hp n (.inr hI))) _ _)
  · exact .inl (hP.discriminate hp _ (.inr (hP.samplePipeline_fQ hp n (.inr hQ))) _ _)
  · exact .inr hOut

end

/-- Settles O26: NaNs, and values that are not finite, are each passed on by every primitive. -/
theorem naNPoisonsTheRun : Obligations.NaNPoisonsTheRun := by
  intro s x hp hrun hlo hdly
  have hin : InRun s.block := ⟨hrun, hlo, hdly⟩
  refine ⟨sampled x s, _, hin.exec_processSample x, hin.sampled_responses x, fun h => ?_,
    absorbing_not_isFinite.samplePipeline_fI hp _, absorbing_not_isFinite.samplePipeline_fQ hp _, fun h => ?_⟩
  · exact and_self_iff.mpr (absorbing_isNaN.samplePipeline_fOut hp _ (h.imp_right fun h => .inr (.inr h)))
  · exact and_self_iff.mpr (absorbing_not_isFinite.samplePipeline_fOut hp _ h)

/-! ### The rest of a poisoned run -/

/-- A run with the default primitives whose output filter holds a NaN if `A`, and a value that is not finite if `B`. -/
structure PoisonedRun (A B : Prop) (s : State) : Prop where
  default : s.params.primitives = .binary64
  inRun : InRun s.block
  nan : A → isNaN s.block.fOut.bufOut = true
  notFinite : B → isFinite s.block.fOut.bufOut = false

theorem PoisonedRun.sampled {A B : Prop} {s : State} (h : PoisonedRun A B s) (x : F64) :
    PoisonedRun A B (sampled x s) where
  default := h.default
  inRun := h.inRun.samplePipeline _ _ x
  nan hA := absorbing_isNaN.samplePipeline_fOut h.default _ (.inr (.inr (.inr (h.nan hA))))
  notFinite hB := absorbing_not_isFinite.samplePipeline_fOut h.default _ (.inr (.inr (.inr (h.notFinite hB))))

/-- An error leaves the block as it is, and each sample hands the output filter's poison to the next. -/
theorem PoisonedRun.answersSamples {A B : Prop} {s : State} (h : PoisonedRun A B s) {ps : List Packet}
    (hstays : staysInRun ps s = true) :
    AnswersSamples (fun y => (A → isNaN y = true) ∧ (B → isFinite y = false)) ps s :=
  answersSamples_of_invariant (Inv := fun _ => PoisonedRun A B) PoisonedRun.inRun
    (fun _ _ h => ⟨h.default, h.inRun, h.nan, h.notFinite⟩)
    (fun _ _ h => ⟨h.sampled _, (h.sampled _).nan, (h.sampled _).notFinite⟩) h hstays

/-- Settles O54: the first sample poisons the output filter, and the packets after it keep it so. -/
theorem poisonLastsForTheRun : Obligations.PoisonLastsForTheRun := by
  intro s x p ps hp hrun hlo hdly hdec hstays
  have hin : InRun s.block := ⟨hrun, hlo, hdly⟩
  have hserve : servePacket p s = .next (sampled x s) :=
    (servePacket_of_command hdec s).trans (hin.exec_processSample x)
  have hpoisoned : PoisonedRun (isNaN x = true ∨ isNaN s.block.fOut.bufOut = true)
      (isFinite x = false ∨ isFinite s.block.fI.bufOut = false ∨ isFinite s.block.fQ.bufOut = false ∨
        isFinite s.block.fOut.bufOut = false) (sampled x s) :=
    ⟨hp, hin.samplePipeline _ _ x,
      fun h => absorbing_isNaN.samplePipeline_fOut hp _ (h.imp_right fun h => .inr (.inr h)),
      absorbing_not_isFinite.samplePipeline_fOut hp _⟩
  obtain ⟨t, outs, ht, hresp, hlen, hall⟩ := AnswersSamples.cons_sample hin hserve
    ⟨hpoisoned.nan, hpoisoned.notFinite⟩ (hpoisoned.answersSamples ((staysInRun_cons hserve).mp hstays).2)
  refine ⟨t, outs, ht, hresp, hlen, fun hA c hc hsc => ?_, fun hB c hc hsc => ?_⟩ <;>
    obtain ⟨y, hy, hnan, hfin⟩ := hall c hc hsc
  · rw [hy]
    exact hnan hA
  · rw [hy]
    exact hfin hB

end Sys2Proof.Machine

/-! ## CONFIGURE (R160 to R163) -/

namespace Sys2Proof.Machine

/-! ### An error response (R206) -/

/-- An error adds its response, with the number of its kind, its cause and the lifecycle state, and nothing else. -/
theorem raise_eq (e : Err) (s : State) (h : e.cause < 16) :
    raise e s = { s with
      responses := s.responses ++
        [⟨BitVec.ofNat 32 (errNumber e.code + 16 * e.cause + 256 * stateNumber s.block.state), 0, 0⟩] } := by
  rw [← errStatus_eq e _ h]
  rfl

theorem raise_prematureUse_unconfigured {s : State} (hs : s.block.state = .unconfigured) :
    raise { code := .prematureUse, cause := 1 } s
      = { s with responses := s.responses ++ [⟨0x00000013#32, 0, 0⟩] } := by
  rw [raise_eq _ s (by decide), hs]
  rfl

theorem raise_prematureUse_configured {s : State} (hs : s.block.state = .configured) :
    raise { code := .prematureUse, cause := 2 } s
      = { s with responses := s.responses ++ [⟨0x00000123#32, 0, 0⟩] } := by
  rw [raise_eq _ s (by decide), hs]
  rfl

theorem exec_processSample_of_configured {s : State} (hs : s.block.state = .configured) (x : F64) :
    exec (.processSample x) s = .next (raise { code := .prematureUse, cause := 2 } s) := by
  simp only [exec, execProcessSample, hs]

/-! ### The checks and the block they leave -/

/-- A quotient the primitive answers is no draw. -/
theorem fdiv_of_some {A : Arith} {a b q : F64} (n : Nat) (h : A.fdiv a b = some q) : fdiv A n a b = q := by
  unfold fdiv
  rw [h, Option.getD_some]

/-- Settles O13, one clause for each check. -/
theorem configureRaisesTheFirstFailingCheck : Obligations.ConfigureRaisesTheFirstFailingCheck := by
  intro s fs osr cause h
  have hcheck : configureCheck s.params s.nanDraws fs osr = some ⟨.invalidConfiguration, cause⟩ := by
    unfold configureCheck
    obtain ⟨hosr, rfl⟩ | ⟨hpos, hmod, rfl⟩ | ⟨hpos, hmod, hfs, rfl⟩ | ⟨hpos, hmod, hfin, hfs, hflo, rfl⟩ := h
    · rw [if_pos hosr]
    · rw [if_neg hpos.not_ge, if_pos hmod]
    · rw [if_neg hpos.not_ge, if_neg (not_not.mpr hmod), if_pos (by simpa using hfs)]
    · have hq : fgt (configureFlo s.params s.nanDraws fs osr) posZero = false := by
        rw [← Bool.not_eq_true]
        exact fun hgt => Bool.false_ne_true ((hflo _ (fdiv_eq_some_of_fgt hgt)).symm.trans hgt)
      rw [if_neg hpos.not_ge, if_neg (not_not.mpr hmod), if_neg (by simp [hfin, hfs]), if_pos (by simp [hq])]
  have hcause := (configureCheck_code hcheck).2.2
  exact (execConfigure_error hcheck).trans (congrArg _ (raise_eq _ s (Nat.lt_of_le_of_lt hcause (by decide))))

/-- The block CONFIGURE leaves, field by field (R162). -/
theorem configureBlock_eq {p : Params} {fs flo : F64} {osr : Int} (n : Nat) (b : Block)
    (hflo : (arithOf p).fdiv fs (f64OfInt osr) = some flo) :
    configureBlock p n fs osr b =
      { state := .configured, fs := fs, osr := osr, flo := flo, period := osr.toNat
        quarter := osr.toNat / 4, dratio := 0, fc := posZero, mas := posZero, fsens := posZero, delay := 0
        phasedev := posZero, loIdx := 0, dlyIdx := 0, iBuf := [], qBuf := []
        fI := ⟨posZero, posZero⟩, fQ := ⟨posZero, posZero⟩, fOut := ⟨posZero, posZero⟩ } := by
  have hquarter : (osr / 4).toNat = osr.toNat / 4 := by omega
  rw [← hquarter, ← fdiv_of_some n hflo]
  rfl

/-- Only an INIT_RUN takes the block out of CONFIGURED (R21). -/
theorem servePacket_configured {p : Packet} {s t : State} (hs : s.block.state = .configured)
    (h : servePacket p s = .next t) (hp : ∀ ratio fc mas fsens, decode p ≠ .command (.initRun ratio fc mas fsens)) :
    t.block.state = .configured := by
  rcases servePacket_next_cases h with ⟨e, rfl⟩ | ⟨i, hi, hc⟩
  · exact hs
  · cases hc with
    | configure => rfl
    | initRun => exact absurd hi (hp _ _ _ _)
    | processSample hrun => cases hs.symm.trans hrun

/-- Settles O12: the checks pass, and the block after them is CONFIGURED, which answers samples with an error. -/
theorem configureWritesEveryField : Obligations.ConfigureWritesEveryField := by
  intro s fs flo osr hpos hmod hfin hfs hflo hgt
  have hcheck : configureCheck s.params s.nanDraws fs osr = none :=
    (configureCheck_none_iff ..).mpr ⟨hpos, hmod, hfin, hfs, by rwa [configureFlo, fdiv_of_some _ hflo]⟩
  refine ⟨_, execConfigure_ok hcheck, configureBlock_eq _ _ hflo, rfl, rfl, ?_, fun x => ?_,
    fun v u p hv => servePacket_configured hv⟩
  · rw [complete_responses, configureBlock_state, okResponse, okStatus_configured]
    rfl
  · rw [exec_processSample_of_configured rfl, raise_prematureUse_configured rfl]

end Sys2Proof.Machine

/-! ## INIT_RUN (R164 to R169, R174) -/

namespace Sys2Proof.Machine

/-! ### The checks and the block they leave -/

/-- The delay quotient of R165 with its draws numbered by `n`. -/
def quotientDrawn (A : Arith) (n : Nat → Nat) (b : Block) (ratio : Int) (fc : F64) : F64 :=
  fdiv A (n 3) (fmul A (n 1) (f64OfInt ratio) b.fs) (fmul A (n 2) posTwo (fabs (fsub A (n 0) b.flo fc)))

/-- With the default primitives the quotient is the same up to the payload of a NaN, whatever its draws. -/
theorem sameF_quotientDrawn {s : State} {n : Nat → Nat}
    (hn : s.params.primitives = .binary64 ∨ ∀ i, n i = s.nanDraws + i) (ratio : Int) (fc : F64) :
    SameF (delayQuotient s.params s.nanDraws s.block ratio fc)
      (quotientDrawn (arithOf s.params) n s.block ratio fc) := by
  rcases hn with hp | hn
  · rw [delayQuotient, quotientDrawn, arithOf_binary64 hp]
    exact (SameF.fmul (.refl _) (.refl _) _ _).fdiv
      (SameF.fmul (.refl _) (SameF.fsub (.refl _) (.refl _) _ _).fabs _ _) _ _
  · rw [quotientDrawn, hn, hn, hn, hn]
    exact .refl _

/-- A quotient that is not a NaN is the same whatever its draws. -/
theorem SameF.eq_of_not_isNaN {a b : F64} (h : SameF a b) (hb : isNaN b = false) : a = b :=
  h.resolve_right fun hnan => Bool.false_ne_true (hb.symm.trans hnan.2)

/-- The block INIT_RUN leaves, field by field (R167). -/
theorem initRunBlock_eq (d : Nat) (pd : F64) (ratio : Int) (fc mas fsens : F64) (b : Block) :
    initRunBlock d pd ratio fc mas fsens b =
      { b with
        state := .running, dratio := ratio, fc := fc, mas := mas, fsens := fsens, phasedev := pd, delay := d
        loIdx := 0, dlyIdx := 0, iBuf := [], qBuf := []
        fI := ⟨posZero, posZero⟩, fQ := ⟨posZero, posZero⟩, fOut := ⟨posZero, posZero⟩ } := rfl

/-- Settles O16: a quotient that is not a NaN is the one the checks read, so they resolve the delay. -/
theorem initRunStartsARun : Obligations.InitRunStartsARun := by
  intro s ratio fc mas fsens n d A q hn hst hratio hfc hne hnan hinf hround hd hmax
  have hq : delayQuotient s.params s.nanDraws s.block ratio fc = q :=
    (sameF_quotientDrawn hn ratio fc).eq_of_not_isNaN hnan
  have hdelay : resolveDelay s.params s.nanDraws s.block ratio fc = .ok d :=
    (resolveDelay_ok_iff ..).mpr ⟨hst, hratio, hfc, hne, hq ▸ hnan, hq ▸ hinf, hq ▸ hround, hd, hmax⟩
  refine ⟨_, fun i => s.nanDraws + 4 + i, execInitRun_ok mas fsens hdelay, initRunBlock_eq .., rfl, rfl, ?_⟩
  rw [complete_responses, initRunBlock_state, okResponse, okStatus_running]
  rfl

/-- The checks of INIT_RUN on the operands (R166), in their order. -/
theorem resolveDelay_operands {p : Params} {n : Nat} {b : Block} {ratio : Int} {fc : F64}
    (hst : b.state ≠ .unconfigured) {cause : Nat}
    (h : (ratio < 1 ∧ cause = 1) ∨ (1 ≤ ratio ∧ isFinite fc = false ∧ cause = 2) ∨
      (1 ≤ ratio ∧ isFinite fc = true ∧ feq b.flo fc = true ∧ cause = 3)) :
    resolveDelay p n b ratio fc = .error ⟨.degenerateParameters, cause⟩ := by
  rw [resolveDelay, if_neg hst]
  rcases h with ⟨hratio, rfl⟩ | ⟨hratio, hfc, rfl⟩ | ⟨hratio, hfc, heq, rfl⟩
  · rw [if_pos hratio]
  · rw [if_neg hratio.not_gt, if_pos (by rw [hfc]; rfl)]
  · rw [if_neg hratio.not_gt, if_neg (by simp [hfc]), if_pos heq]

/-- The checks of INIT_RUN on the quotient (R166), in their order, for operands that pass those before. -/
theorem resolveDelay_quotient {p : Params} {n : Nat} {b : Block} {ratio : Int} {fc : F64} {q : F64}
    (hst : b.state ≠ .unconfigured) (hratio : 1 ≤ ratio) (hfc : isFinite fc = true) (hne : feq b.flo fc = false)
    (hq : SameF (delayQuotient p n b ratio fc) q) {cause : Nat}
    (h : (isNaN q = true ∧ cause = 4) ∨ (q = posInf ∧ cause = 5) ∨
      (isNaN q = false ∧ q ≠ posInf ∧ roundHalfEven q < 1 ∧ cause = 4) ∨
      (isNaN q = false ∧ q ≠ posInf ∧ (p.maxDelay : Int) < roundHalfEven q ∧ 1 ≤ roundHalfEven q ∧ cause = 5)) :
    resolveDelay p n b ratio fc = .error ⟨.degenerateParameters, cause⟩ := by
  rw [resolveDelay, if_neg hst, if_neg hratio.not_gt, if_neg (by simp [hfc]), if_neg (by simp [hne])]
  rcases h with ⟨hnan, rfl⟩ | ⟨rfl, rfl⟩ | ⟨hnan, hinf, hlow, rfl⟩ | ⟨hnan, hinf, hhigh, hlow, rfl⟩
  · rw [if_pos (hq.isNaN_eq.trans hnan)]
  · rw [hq.eq_of_not_isNaN (by decide), if_neg (by decide), if_pos rfl]
  · rw [hq.eq_of_not_isNaN hnan, if_neg (by simp [hnan]), if_neg hinf, if_pos hlow]
  · rw [hq.eq_of_not_isNaN hnan, if_neg (by simp [hnan]), if_neg hinf, if_neg hlow.not_gt, if_pos hhigh]

/-- An INIT_RUN outside UNCONFIGURED that fails a check is answered with the cause of the check. -/
theorem exec_initRun_of_degenerate {s : State} {ratio : Int} {fc : F64} {cause : Nat} (mas fsens : F64)
    (hst : s.block.state ≠ .unconfigured)
    (h : resolveDelay s.params s.nanDraws s.block ratio fc = .error ⟨.degenerateParameters, cause⟩) :
    exec (.initRun ratio fc mas fsens) s = .next { s with
      responses := s.responses ++
        [⟨BitVec.ofNat 32 (2 + 16 * cause + 256 * stateNumber s.block.state), 0, 0⟩] } := by
  obtain ⟨hu, -⟩ | ⟨-, -, -, hcause⟩ := resolveDelay_error h
  · exact absurd hu hst
  · exact (execInitRun_error h).trans (congrArg _ (raise_eq _ s (Nat.lt_of_le_of_lt hcause (by decide))))

/-- Settles O17: PrematureUse first, then the checks on the operands, then those on the quotient. -/
theorem initRunRaisesTheFirstFailingCheck : Obligations.InitRunRaisesTheFirstFailingCheck := by
  intro s ratio fc mas fsens n err cause A q hn h
  rcases h with ⟨hst, rfl, rfl⟩ | ⟨hst, rfl, h⟩
  · exact (exec_initRun_of_unconfigured hst).trans (congrArg _ (raise_eq _ s (by decide)))
  · refine exec_initRun_of_degenerate mas fsens hst ?_
    rcases h with h | h | h | ⟨hratio, hfc, hne, h⟩
    · exact resolveDelay_operands hst (.inl h)
    · exact resolveDelay_operands hst (.inr (.inl h))
    · exact resolveDelay_operands hst (.inr (.inr h))
    · exact resolveDelay_quotient hst hratio hfc hne (sameF_quotientDrawn hn ratio fc) h

/-- Of the block the checks of INIT_RUN read STATE, FS and FLO only (R165, R166). -/
theorem resolveDelay_ok_congr {p : Params} {n d : Nat} {b c : Block} {ratio : Int} {fc : F64}
    (hst : c.state ≠ .unconfigured) (hfs : b.fs = c.fs) (hflo : b.flo = c.flo)
    (h : resolveDelay p n b ratio fc = .ok d) : resolveDelay p n c ratio fc = .ok d := by
  have hq : delayQuotient p n b ratio fc = delayQuotient p n c ratio fc := by
    rw [delayQuotient, delayQuotient, hfs, hflo]
  rw [resolveDelay_ok_iff, hq, hflo] at h
  exact (resolveDelay_ok_iff ..).mpr ⟨hst, h.2⟩

/-- Settles O18: the delay and the phase deviation come from the configuration, and every other field is written. -/
theorem initRunForgetsTheEarlierRun : Obligations.InitRunForgetsTheEarlierRun := by
  intro s t u r ratio fc mas fsens hst hfs hosr hflo hperiod hquarter hparams hinputs hresp hdraws hexec hr hstatus
  have ht : t = withBlock t.block s := by rw [withBlock, hparams, hinputs, hresp, hdraws]
  cases Completes.of_okStatus_running hexec hr hstatus with
  | @initRun _ _ _ _ pd d hdelay hpd =>
    have hblock : initRunBlock d pd ratio fc mas fsens t.block = initRunBlock d pd ratio fc mas fsens s.block := by
      rw [initRunBlock_eq, initRunBlock_eq, hfs, hosr, hflo, hperiod, hquarter]
    have hdelay' : resolveDelay t.params t.nanDraws t.block ratio fc = .ok d :=
      hparams ▸ hdraws ▸ resolveDelay_ok_congr hst hfs hflo hdelay
    refine (execInitRun_ok mas fsens hdelay').trans ?_
    rw [← hparams, ← hdraws, ← hfs, ← hpd, hblock, ht, complete_withBlock]

/-- Settles O24: an error changes nothing of the block, and a completion writes only the registers of the run. -/
theorem initRunFrame : Obligations.InitRunFrame := by
  intro s t ratio fc mas fsens h
  rcases exec_next_cases h with ⟨e, rfl⟩ | hc
  · exact ⟨rfl, rfl, rfl, rfl, rfl, rfl, rfl⟩
  · cases hc
    exact ⟨rfl, rfl, rfl, rfl, rfl, rfl, rfl⟩

/-! ### The sign of the delay quotient -/

/-- A NaN, or a value with a clear sign bit. -/
def NotNegative (a : F64) : Prop := isNaN a = true ∨ signBit a = false

theorem notNegative_someNaN (n : Nat) : NotNegative (someNaN n) := .inl (isNaN_someNaN n)

/-- The sign of a product or a quotient is that of its operands, where no operand is a NaN. -/
theorem notNegative_pack {a b : F64} {m : Nat} (ha : NotNegative a) (hb : NotNegative b) (hm : m < 2 ^ 63)
    (hnan : ¬ (isNaN a || isNaN b) = true) : NotNegative (pack (signXor a b) m) := by
  rw [Bool.or_eq_true, not_or] at hnan
  refine .inr ?_
  rw [signBit_pack _ hm, signXor, ha.resolve_left hnan.1, hb.resolve_left hnan.2]
  rfl

theorem NotNegative.fmul {a b : F64} (ha : NotNegative a) (hb : NotNegative b) (n : Nat) :
    NotNegative (fmul ieeeArith n a b) := by
  rw [fmul_eq, ieeeMul]
  split_ifs with hnan
  · exact notNegative_someNaN n
  · exact notNegative_someNaN n
  · exact notNegative_pack ha hb infMag_lt hnan
  · exact notNegative_pack ha hb (roundMag_lt _ _) hnan

theorem NotNegative.fdiv {a b : F64} (ha : NotNegative a) (hb : NotNegative b) (n : Nat) :
    NotNegative (fdiv ieeeArith n a b) := by
  rw [fdiv_eq, ieeeDiv]
  split_ifs with hnan
  · exact notNegative_someNaN n
  · exact notNegative_someNaN n
  · exact notNegative_pack ha hb infMag_lt hnan
  · exact notNegative_pack ha hb (by decide) hnan
  · exact notNegative_someNaN n
  · exact notNegative_pack ha hb infMag_lt hnan
  · exact notNegative_pack ha hb (roundMag_lt _ _) hnan

theorem notNegative_f64OfInt {k : Int} (h : 0 ≤ k) : NotNegative (f64OfInt k) := by
  unfold f64OfInt
  refine .inr ?_
  rw [signBit_pack _ (roundMag_lt _ _), decide_eq_false h.not_gt]

theorem notNegative_of_fgt_posZero {a : F64} (h : fgt a posZero = true) : NotNegative a := by
  have hkey := orderKey_lt_of_fgt h
  rw [orderKey_posZero, orderKey] at hkey
  refine .inr ((Bool.not_eq_true _).mp fun hs => ?_)
  rw [if_pos hs] at hkey
  omega

/-- Settles O19: the ratio, `FS`, two and the absolute difference are not negative, and products and quotients of such
values are not. -/
theorem delayQuotientIsNotNegative : Obligations.DelayQuotientIsNotNegative := by
  intro s n ratio fc hs hp hst hratio _ _
  have hfs : NotNegative s.block.fs := notNegative_of_fgt_posZero (hs.2.configOk hst).2.1
  have hnum := (notNegative_f64OfInt (by omega : 0 ≤ ratio)).fmul hfs (n + 1)
  have htwo : NotNegative posTwo := .inr (by decide)
  rw [delayQuotient, arithOf_binary64 hp]
  exact hnum.fdiv (htwo.fmul (.inr (signBit_fabs _)) _) _

/-! ### The difference of FLO and the carrier frequency -/

/-- A size of at least one unit does not round to zero: one is nearer. -/
theorem roundMag_one_ne_zero {k : Nat} (h : 0 < k) : roundMag k 1 ≠ 0 := by
  intro hzero
  have hnear := (roundingIsToNearestEven k 1 one_pos).1 (by rw [hzero]; decide) 1 (by decide) (by rw [hzero]; decide)
  rw [hzero, unitsOf_zero, unitsOf_small (by decide)] at hnear
  omega

/-- A sum of finite values is a zero exactly when it is zero before rounding. -/
theorem isZero_addFinite_iff (a b : F64) : isZero (addFinite a b) = true ↔ signedUnits a + signedUnits b = 0 := by
  rw [addFinite]
  split_ifs with h
  · exact iff_of_true ((isZero_pack (by decide)).mpr rfl) h
  · rw [isZero_pack (roundMag_lt _ _)]
    exact iff_of_false (roundMag_one_ne_zero (Int.natAbs_pos.mpr h)) h

/-- Settles O53: both say that the sizes are equal. -/
theorem differenceIsZeroExactlyWhenEqual : Obligations.DifferenceIsZeroExactlyWhenEqual := by
  intro n a b ha hb
  rw [feq_iff_of_finite ha hb, fsub_of_finite n ha hb, isZero_addFinite_iff, signedUnits_fneg, ← sub_eq_add_neg,
    sub_eq_zero]

end Sys2Proof.Machine

/-! ## PROCESS_SAMPLE (R170 to R173) -/

namespace Sys2Proof.Machine

/-- Settles O20: the draws are counted from the machine's own. -/
theorem processSampleRunsThePipeline : Obligations.ProcessSampleRunsThePipeline := by
  intro s x hrun hlo hdly
  have hin : InRun s.block := ⟨hrun, hlo, hdly⟩
  exact ⟨sampled x s, fun i => s.nanDraws + i, hin.exec_processSample x, rfl, rfl, rfl, hin.sampled_responses x⟩

/-- Settles O21, one clause for each lifecycle state. -/
theorem prematureUseIsAnsweredAndChangesNothing : Obligations.PrematureUseIsAnsweredAndChangesNothing := by
  refine fun s x => ⟨fun hs _ _ _ _ => ?_, fun hs => ?_, fun hs => ?_, fun hrun hlo hdly => ?_⟩
  · rw [exec_initRun_of_unconfigured hs, raise_prematureUse_unconfigured hs]
  · rw [exec_processSample_of_unconfigured hs, raise_prematureUse_unconfigured hs]
  · rw [exec_processSample_of_configured hs, raise_prematureUse_configured hs]
  · have hin : InRun s.block := ⟨hrun, hlo, hdly⟩
    exact ⟨_, _, hin.exec_processSample x, hin.sampled_responses x⟩

/-- Settles O23: an error changes nothing of the block, and the pipeline writes one entry of each buffer. -/
theorem processSampleFrame : Obligations.ProcessSampleFrame := by
  intro s t x h
  rcases exec_next_cases h with ⟨e, rfl⟩ | hc
  · simp
  · cases hc
    simp +contextual [Memory.read_write_other]

end Sys2Proof.Machine

/-! ## Errors, idling, stops and instances (R206, R215, R217, R218) -/

namespace Sys2Proof.Machine

/-! ### What an error leaves (R206) -/

/-- The cause is one of those R201 to R204 list. -/
def ListedCause (e : Err) : Prop := 1 ≤ e.cause ∧ e.cause ≤ 5

theorem listedCause_of_configureCheck {p : Params} {n : Nat} {fs : F64} {osr : Int} {e : Err}
    (h : configureCheck p n fs osr = some e) : ListedCause e := by
  obtain ⟨-, hlo, hhi⟩ := configureCheck_code h
  exact ⟨hlo, by omega⟩

theorem listedCause_of_resolveDelay {p : Params} {n : Nat} {b : Block} {ratio : Int} {fc : F64} {e : Err}
    (h : resolveDelay p n b ratio fc = .error e) : ListedCause e := by
  rcases resolveDelay_error h with ⟨-, rfl⟩ | ⟨-, -, hcause⟩
  · exact ⟨by decide, by decide⟩
  · exact hcause

theorem listedCause_of_decode {p : Packet} {c : Nat} (h : decode p = .illegal c) :
    ListedCause { code := .illegalCommand, cause := c } := by
  rcases decode_cases p with ⟨-, -, -, h'⟩ | ⟨-, -, h'⟩ | ⟨-, -, h'⟩ | ⟨-, -, h'⟩ | ⟨-, -, h'⟩ <;> cases h.symm.trans h'
  · exact ⟨by decide, by decide⟩
  · exact ⟨by decide, by decide⟩

/-- A command that is answered and does not complete raised an error with a listed cause (R201 to R203). -/
theorem exec_error {i : Instr} {s t : State} (h : exec i s = .next t) (hnot : ¬ Completes s i t) :
    ∃ e, ListedCause e ∧ t = raise e s := by
  cases i with
  | configure fs osr =>
    rcases execConfigure_cases fs osr s with ⟨e, he, h'⟩ | ⟨hcheck, h'⟩ <;> cases h.symm.trans h'
    · exact ⟨e, listedCause_of_configureCheck he, rfl⟩
    · exact absurd (.configure hcheck) hnot
  | initRun ratio fc mas fsens =>
    rcases execInitRun_cases ratio fc mas fsens s with ⟨e, he, h'⟩ | ⟨d, hd, h'⟩ <;> cases h.symm.trans h'
    · exact ⟨e, listedCause_of_resolveDelay he, rfl⟩
    · exact absurd (.initRun hd rfl) hnot
  | processSample x =>
    rcases execProcessSample_cases x s with ⟨-, h'⟩ | ⟨-, h'⟩ | ⟨hrun, h'⟩
    · exact ⟨_, ⟨by decide, by decide⟩, Host.Outcome.next.inj (h.symm.trans h')⟩
    · exact ⟨_, ⟨by decide, by decide⟩, Host.Outcome.next.inj (h.symm.trans h')⟩
    · rcases runSample_cases x s with ⟨-, h''⟩ | ⟨-, -, h''⟩ | ⟨hlo, hdly, h''⟩ <;>
        cases h.symm.trans (h'.trans h'')
      exact absurd (.processSample hrun hlo hdly) hnot

/-- A packet whose answer is an error raised one with a listed cause (R201 to R204). -/
theorem servePacket_error {p : Packet} {s t : State} (h : servePacket p s = .next t) (herr : lastIsError t = true) :
    ∃ e, ListedCause e ∧ t = raise e s := by
  rcases servePacket_cases p s with ⟨i, -, h'⟩ | ⟨c, hdec, h'⟩
  · exact exec_error (h'.symm.trans h) fun hc => by simp [hc.lastIsError] at herr
  · exact ⟨_, listedCause_of_decode hdec, Host.Outcome.next.inj (h.symm.trans h')⟩

/-- The STATUS word is its fields, each shifted to its place (R76). -/
theorem statusWord_eq_or (err cause : BitVec 4) (st : BitVec 2) :
    statusWord err cause st = err.setWidth 32 ||| cause.setWidth 32 <<< 4 ||| st.setWidth 32 <<< 8 := by
  revert err cause st
  decide +kernel

theorem errNumber_bounds (c : ErrCode) : 1 ≤ errNumber c ∧ errNumber c ≤ 4 := by
  cases c <;> decide

/-- An error's STATUS word as R206 writes it. -/
theorem errStatus_eq_or {e : Err} (st : Lifecycle) (h : ListedCause e) :
    errStatus e st = BitVec.ofNat 32 (errNumber e.code) ||| BitVec.ofNat 32 e.cause <<< 4
      ||| BitVec.ofNat 32 (stateNumber st) <<< 8 := by
  have herr : errNumber e.code < 2 ^ 4 := Nat.lt_of_le_of_lt (errNumber_bounds e.code).2 (by decide)
  have hcause : e.cause < 2 ^ 4 := Nat.lt_of_le_of_lt h.2 (by decide)
  have hstate : stateNumber st < 2 ^ 2 := by cases st <;> decide
  rw [errStatus, statusWord_eq_or, BitVec.setWidth_ofNat_of_le_of_lt (by decide) herr,
    BitVec.setWidth_ofNat_of_le_of_lt (by decide) hcause, BitVec.setWidth_ofNat_of_le_of_lt (by decide) hstate]

/-- Settles O27: an answer with a non-zero ERR is `raise`'s, which adds its response and writes nothing else. -/
theorem errorsWriteNothing : Obligations.ErrorsWriteNothing := by
  intro s t p r hserve hr herr
  obtain ⟨e, hcause, rfl⟩ := servePacket_error hserve (by simpa [lastIsError, hr] using herr)
  obtain rfl : errResponse e s.block.state = r := by simpa using hr
  obtain ⟨herrLo, herrHi⟩ := errNumber_bounds e.code
  exact ⟨rfl, rfl, rfl, _, _, herrLo, herrHi, hcause.1, hcause.2, errStatus_eq_or s.block.state hcause⟩

/-! ### Idling and stops (R217, R218) -/

/-- Settles O10: of the three things a step can do, the other two take an event off the port. -/
theorem idleBlockKeepsItsState : Obligations.IdleBlockKeepsItsState := by
  intro s hin
  rcases step_cases s with ⟨-, h⟩ | ⟨p, rest, hin', -⟩ | ⟨e, rest, hin', -⟩
  · exact h
  · cases hin.symm.trans hin'
  · cases hin.symm.trans hin'

/-- Settles O34: only a packet could stop the machine, and in a state of R37 every packet is answered. -/
theorem noStepStops : Obligations.NoStepStops := by
  intro s hinv
  rcases step_cases s with ⟨-, h⟩ | ⟨p, rest, -, h⟩ | ⟨e, rest, -, -, h⟩
  · exact ⟨_, h⟩
  · rw [h]
    exact servePacket_next_of_stateInv (s := { s with inputs := rest }) hinv p
  · exact ⟨_, h⟩

/-! ### Several instances (R215) -/

/-- A step of instance `k` that answers is that machine's own, put back in its place. -/
theorem systemStep_next {k : Nat} {sys sys' : List State} (h : systemStep k sys = some (.next sys')) :
    ∃ s t, sys[k]? = some s ∧ step s = .next t ∧ sys' = sys.set k t := by
  unfold systemStep at h
  cases hs : sys[k]? with
  | none => simp [hs] at h
  | some s =>
    cases ht : step s with
    | next t => exact ⟨s, t, rfl, ht, by simpa [hs, ht] using h.symm⟩
    | fault r => simp [hs, ht] at h
    | refused r => simp [hs, ht] at h

/-- Settles O36: only place `k` of the list is set. -/
theorem instancesShareNothing : Obligations.InstancesShareNothing := by
  intro sys sys' k h
  obtain ⟨s, t, hs, hstep, rfl⟩ := systemStep_next h
  obtain ⟨hk, -⟩ := List.getElem?_eq_some_iff.mp hs
  exact ⟨List.length_set, fun j hj => List.getElem?_set_ne hj.symm, s, t, hs, hstep, List.getElem?_set_self hk⟩

end Sys2Proof.Machine

/-! ## Hardware reset (R20, R240) -/

namespace Sys2Proof.Machine

/-- A reset is served alike between commands and during one: the aborted command leaves nothing behind. -/
theorem step_of_reset {s : State} {p : Packet} {rest : List HostEvent}
    (h : s.inputs = .reset :: rest ∨ s.inputs = .resetDuring p :: rest) :
    step s = .next (hardwareReset { s with inputs := rest }) := by
  rcases h with h | h
  · simp only [step, serve, h, serveEvent]
  · simp only [step, serve, h, serveEvent]

/-- Settles O11: the block is `Block.reset`, whose buffers list no entry. -/
theorem hardwareResetClearsTheBlock : Obligations.HardwareResetClearsTheBlock :=
  fun _ _ _ hin => ⟨step_of_reset hin, Memory.read_nil⟩

end Sys2Proof.Machine
